-- ==== Sys2Proof/Word.lean ====
section
/-! DEFINITION. The two fixed widths of the hardware (spec/00_scope.md R6): a byte of the program (`OPW` = 8) and a
value of the operand stack (`VW` = 32). -/

namespace Sys2Proof

/-- One byte of the program: an opcode or an immediate operand (R6 `OPW`, R7). -/
abbrev Byte := BitVec 8

/-- One cell of the operand stack: a signed 32-bit integer in two's complement (R6 `VW`, R7). Its number is `toInt`. -/
abbrev Value := BitVec 32

end Sys2Proof
end

