-- ==== Sys2Proof/Syntax.lean ====
section
/-! DEFINITION. The 15 instructions of RVM bytecode, one constructor per row of spec/opcode_table.json
(spec/30_encoding.md R64). There are no others: no pseudo-instruction, no NOP, no compare (R71, R134). -/

namespace Sys2Proof

/-- An instruction with its decoded operand (R63): `imm` is the signed number of an `imm8`, `target` and `idx` the natural
numbers of an `addr8` and an `idx8`. Their ranges are `Instr.wf`. -/
inductive Instr where
  /-- 0x01 PUSH imm8 (R101) -/
  | push (imm : Int)
  /-- 0x02 ADD (R102) -/
  | add
  /-- 0x03 SUB (R103) -/
  | sub
  /-- 0x04 MUL (R104) -/
  | mul
  /-- 0x05 DIV (R105) -/
  | div
  /-- 0x06 PRINT (R106) -/
  | print
  /-- 0x10 CALL addr8 (R120) -/
  | call (target : Nat)
  /-- 0x11 RETURN (R121) -/
  | ret
  /-- 0x12 JUMP addr8 (R130) -/
  | jump (target : Nat)
  /-- 0x13 JUMP_IF addr8 (R131) -/
  | jumpIf (target : Nat)
  /-- 0x20 STORE_LOCAL idx8 (R141) -/
  | storeLocal (idx : Nat)
  /-- 0x21 LOAD_LOCAL idx8 (R142) -/
  | loadLocal (idx : Nat)
  /-- 0x22 STORE_PARAM idx8 (R143) -/
  | storeParam (idx : Nat)
  /-- 0x23 LOAD_PARAM idx8 (R144) -/
  | loadParam (idx : Nat)
  /-- 0xFF HALT (R89) -/
  | halt
deriving DecidableEq, Repr

end Sys2Proof
end

