-- ==== Sys2Proof/WellFormed.lean ====
section
/-! DEFINITION. Which terms of `Instr` are instructions: the operand lies in the range its one byte can hold
(spec/30_encoding.md R63). Every value of that range is legal (R67). -/

namespace Sys2Proof

/-- An `imm8` is a number from -128 to 127 (R63). -/
def imm8Ok (imm : Int) : Bool := decide (-128 ≤ imm ∧ imm ≤ 127)

/-- An `addr8` is a number from 0 to 255 (R63). -/
def addr8Ok (target : Nat) : Bool := decide (target ≤ 255)

/-- An `idx8` is a number from 0 to 255 (R63). -/
def idx8Ok (idx : Nat) : Bool := decide (idx ≤ 255)

/-- The instruction has an encoding: its operand is in range. -/
def Instr.wf : Instr → Bool
  | .push imm => imm8Ok imm
  | .add => true
  | .sub => true
  | .mul => true
  | .div => true
  | .print => true
  | .call target => addr8Ok target
  | .ret => true
  | .jump target => addr8Ok target
  | .jumpIf target => addr8Ok target
  | .storeLocal idx => idx8Ok idx
  | .loadLocal idx => idx8Ok idx
  | .storeParam idx => idx8Ok idx
  | .loadParam idx => idx8Ok idx
  | .halt => true

end Sys2Proof
end

