-- ==== Sys2Proof/Decode.lean ====
section
/-! DEFINITION. The decoder, total on any bytes, and the encoder (spec/30_encoding.md R60 to R69). The first byte alone
decides the instruction and its length (R65); a byte outside the 15 opcodes is rejected by name (R66), and so is a two-byte
instruction whose operand byte is missing (R68). -/

namespace Sys2Proof

/-- The 15 recognised opcodes (R64). -/
inductive Opcode where
  | push | add | sub | mul | div | print
  | call | ret | jump | jumpIf
  | storeLocal | loadLocal | storeParam | loadParam
  | halt
deriving DecidableEq, Repr

/-- What the decoder answers on a sequence of bytes. -/
inductive Decoded where
  /-- an instruction, and the bytes after it -/
  | instr (i : Instr) (rest : List Byte)
  /-- the first byte is not one of the 15 opcodes (R66) -/
  | unknownOpcode (b : Byte)
  /-- a two-byte opcode with no byte after it (R68) -/
  | truncated (op : Opcode)
  /-- there is no byte at all -/
  | noByte
deriving DecidableEq, Repr

/-- The opcode map: the whole first byte is compared (R64). -/
def opcodeOfByte (b : Byte) : Option Opcode :=
  match b.toNat with
  | 0x01 => some .push
  | 0x02 => some .add
  | 0x03 => some .sub
  | 0x04 => some .mul
  | 0x05 => some .div
  | 0x06 => some .print
  | 0x10 => some .call
  | 0x11 => some .ret
  | 0x12 => some .jump
  | 0x13 => some .jumpIf
  | 0x20 => some .storeLocal
  | 0x21 => some .loadLocal
  | 0x22 => some .storeParam
  | 0x23 => some .loadParam
  | 0xFF => some .halt
  | _ => none

/-- `sext_32` of a byte as a number: the byte, less 256 when its bit 7 is set (R10, R63). -/
def signedOfByte (b : Byte) : Int := if b.msb then (b.toNat : Int) - 256 else (b.toNat : Int)

/-- `zext` of a byte (R10, R63). -/
def unsignedOfByte (b : Byte) : Nat := b.toNat

/-- Format I: take the operand byte, or reject the truncated instruction (R62, R68). -/
def takeOperand (op : Opcode) (mk : Byte → Instr) : List Byte → Decoded
  | [] => .truncated op
  | v :: rest => .instr (mk v) rest

/-- The rest of the decoding once the opcode is known: format N has no further byte (R61), format I one (R62), and the
opcode says which kind of operand it is (R63). -/
def decodeOperand (op : Opcode) (rest : List Byte) : Decoded :=
  match op with
  | .push => takeOperand .push (fun v => .push (signedOfByte v)) rest
  | .add => .instr .add rest
  | .sub => .instr .sub rest
  | .mul => .instr .mul rest
  | .div => .instr .div rest
  | .print => .instr .print rest
  | .call => takeOperand .call (fun v => .call (unsignedOfByte v)) rest
  | .ret => .instr .ret rest
  | .jump => takeOperand .jump (fun v => .jump (unsignedOfByte v)) rest
  | .jumpIf => takeOperand .jumpIf (fun v => .jumpIf (unsignedOfByte v)) rest
  | .storeLocal => takeOperand .storeLocal (fun v => .storeLocal (unsignedOfByte v)) rest
  | .loadLocal => takeOperand .loadLocal (fun v => .loadLocal (unsignedOfByte v)) rest
  | .storeParam => takeOperand .storeParam (fun v => .storeParam (unsignedOfByte v)) rest
  | .loadParam => takeOperand .loadParam (fun v => .loadParam (unsignedOfByte v)) rest
  | .halt => .instr .halt rest

/-- Decode the instruction at the front of a sequence of bytes (R60, R65). -/
def decode : List Byte → Decoded
  | [] => .noByte
  | b :: rest =>
    match opcodeOfByte b with
    | none => .unknownOpcode b
    | some op => decodeOperand op rest

/-! ### The encoder -/

/-- The operand byte of an `imm8`: the low 8 bits of the number (R63, R70). -/
def byteOfInt (imm : Int) : Byte := BitVec.ofInt 8 imm

/-- The operand byte of an `addr8` or an `idx8` (R63). -/
def byteOfNat (n : Nat) : Byte := BitVec.ofNat 8 n

/-- The bytes of an instruction, opcode first, the operand byte directly after it (R61, R62, R64). -/
def encode : Instr → List Byte
  | .push imm => [0x01#8, byteOfInt imm]
  | .add => [0x02#8]
  | .sub => [0x03#8]
  | .mul => [0x04#8]
  | .div => [0x05#8]
  | .print => [0x06#8]
  | .call target => [0x10#8, byteOfNat target]
  | .ret => [0x11#8]
  | .jump target => [0x12#8, byteOfNat target]
  | .jumpIf target => [0x13#8, byteOfNat target]
  | .storeLocal idx => [0x20#8, byteOfNat idx]
  | .loadLocal idx => [0x21#8, byteOfNat idx]
  | .storeParam idx => [0x22#8, byteOfNat idx]
  | .loadParam idx => [0x23#8, byteOfNat idx]
  | .halt => [0xFF#8]

/-! ### Words numbered as spec/opcode_table.json numbers them -/

/-- The two bytes of an instruction given as one number, bit 0 the least significant bit of the first byte; the bits from
`nbits` up are 0. Two bytes is the longest instruction (R65). -/
def wordBytes (nbits w : Nat) : List Byte :=
  [BitVec.ofNat 8 (w % 2 ^ nbits), BitVec.ofNat 8 (w % 2 ^ nbits / 256)]

/-- The instruction the decoder reads from an instruction whose bits are `w`. -/
def decodeTableWord (nbits w : Nat) : Option Instr :=
  match decode (wordBytes nbits w) with
  | .instr i _ => some i
  | .unknownOpcode _ => none
  | .truncated _ => none
  | .noByte => none

end Sys2Proof
end

