-- ==== Sys2Proof/Config.lean ====
section
/-! DEFINITION. The parameters of the hardware that a build fixes (spec/00_scope.md R6, the table "Parameters of rule
R6"), as plain data. A `Config` is an argument of the model: State carries one, no step changes it, and every statement
holds for every value of it unless it says otherwise. -/

namespace Sys2Proof

/-- `OVF`: what ADD, SUB, MUL and DIV of -2^31 by -1 give when the exact result does not fit 32 bits. The spec decides
one rule and asks that the model name it (R6, R107; D6, D7). -/
inductive OverflowRule where
  /-- wrap modulo 2^32 into the signed range (R10 `wrap32`) -/
  | wrap
deriving DecidableEq, Repr

/-- The parameters of a build (R6). The default is the source's own model: unbounded stacks, natural-number widths. -/
structure Config where
  /-- `OS_CAP`: the largest number of cells of the operand stack; `none` is unbounded (R6, R109; D11). -/
  osCap : Option Nat := none
  /-- `CS_CAP`: the largest number of entries of the call stack; `none` is unbounded (R6, R120; D11). -/
  csCap : Option Nat := none
  /-- `OVF` (R6, R107; D6, D7). -/
  ovf : OverflowRule := .wrap
  /-- `UW`: the width in bits of `pc`, `fp` and each call-stack entry; `none` is unbounded (R6; D10). -/
  uw : Option Nat := none
deriving DecidableEq, Repr

/-- What R6 and D10 ask of a build's `UW`: unbounded, or `2^UW > max(PLEN, 255, OS_CAP + 255)`. Under it no value ever
wraps, so no step reads `uw`: the machine's numbers are natural numbers. -/
def Config.uwAdmissible (cfg : Config) (plen : Nat) : Bool :=
  match cfg.uw, cfg.osCap with
  | none, _ => true
  | some _, none => false
  | some w, some n => decide (max (max plen 255) (n + 255) < 2 ^ w)

end Sys2Proof
end

