-- ==== Sys2Proof/Machine/State.lean ====
section
/-! DEFINITION. The state of one engine as plain data (spec/10_state.md R20 to R27, R31), the two ways a step can have no
next state, and the state after reset (R35, R190). There are no general registers, flags or hidden buffers (R28 to R32). -/

namespace Sys2Proof.Machine

/-- The run status (R26). `halted` and `faulted` are terminal: no transition leaves them. -/
inductive Status where
  | running
  | halted
  | faulted
deriving DecidableEq, Repr

/-- The fault kinds (spec/60_exceptions.md R160), with `noFault` for the code 0 "none" (R27; D12). `stackOverflow` exists
only in a build with a finite stack capacity (R167; D11). -/
inductive FaultKind where
  | noFault
  | unknownOpcode
  | stackUnderflow
  | outOfBoundsAccess
  | divisionByZero
  | programCounterOutOfRange
  | stackOverflow
deriving DecidableEq, Repr

/-- One output event `(p, v)` of a PRINT (R31, R106): the program counter it reports and the value it prints. -/
structure OutputEvent where
  pc : Nat
  value : Value
deriving DecidableEq, Repr

/-- Program memory (R21, R40, R41): `len` is `PLEN`, and `cells` lists the bytes by address. The canonical form is
`Memory.wf`: addresses strictly rising and below `len`, no cell equal to what an unlisted address below `len` reads as
(`Memory.unlisted`; notes/assumptions/2.md). The addresses from `len` up do not exist. -/
structure Memory where
  len : Nat
  cells : List Host.Cell
deriving DecidableEq, Repr

/-- The empty program: `PLEN = 0`. -/
def Memory.empty : Memory := { len := 0, cells := [] }

/-- The whole state of one engine (R20), with the two arguments of the spec's step function that are fixed for a run (`cfg`
of R6 and `prog` of R21) and the trace `out` of R31. Stacks are listed bottom first, as the spec lists them (R8). -/
structure State where
  /-- the build's parameters (R6); no step changes them -/
  cfg : Config
  /-- the program (R21); no step changes it (R41) -/
  prog : Memory
  /-- the program counter, a natural number (R25) -/
  pc : Nat
  /-- the operand stack, bottom first (R22) -/
  os : List Value
  /-- the call stack, bottom first: return address, frame pointer, return address, … (R23) -/
  cs : List Nat
  /-- the frame pointer, a natural number (R24) -/
  fp : Nat
  /-- the run status (R26) -/
  status : Status
  /-- the kind of the fault reported, `noFault` while not faulted (R27; D12) -/
  faultKind : FaultKind
  /-- the program counter of the fault reported, 0 while not faulted (R27; D12) -/
  faultPc : Nat
  /-- the output events sent so far, in order (R31) -/
  out : List OutputEvent
deriving DecidableEq, Repr

/-- Why a step has no next state: the engine is in a terminal state, where it has no step at all (spec/40_dispatch.md R81).
No INSTRUCTION ends in one of these: a fault of the spec (R160) is a next state whose status is `faulted` (R161). -/
inductive Fault where
  /-- Raised by `step` alone, when `status` is `halted` ("No transition leaves Halted/Faulted", R26, R81). Safe: the spec
  defines no step there, and the state stays what it is until reset. -/
  | haltedHasNoStep
  /-- Raised by `step` alone, when `status` is `faulted` (R26, R81). Safe, for the same reason. -/
  | faultedHasNoStep
deriving DecidableEq, Repr

/-- Why the model has no meaning for an instruction. Every instruction has one, so nothing answers with it. -/
inductive Refusal where
  /-- An arm of `exec` whose instruction has no meaning yet; no arm is such. Safe. -/
  | notModelled (mnemonic : String)
deriving DecidableEq, Repr

/-- Construction of an engine from a build and a program, which is what reset is (spec/70_reset_and_hazards.md R190):
empty stacks, `fp = 0`, `pc = 0`, Running, no fault recorded, no output (R35). -/
def State.construct (cfg : Config) (prog : Memory) : State :=
  { cfg := cfg, prog := prog, pc := 0, os := [], cs := [], fp := 0, status := .running,
    faultKind := .noFault, faultPc := 0, out := [] }

/-- The machine right after reset with nothing loaded: the default build (R6) and the empty program. The host supplies the
program (R192; notes/assumptions/4.md). -/
def State.reset : State := State.construct {} Memory.empty

end Sys2Proof.Machine
end

