-- ==== Sys2Proof/Machine/Ops.lean ====
section
/-! DEFINITION. The named operations the meanings share: reading program memory and loading it, the stack operations, the
updates of State, 32-bit arithmetic, and fault entry (`raise`, spec/60_exceptions.md R161). There is no return from a fault
(R171). -/

namespace Sys2Proof.Machine

/-- What a step or a meaning answers. -/
abbrev Result := Host.Outcome State Fault Refusal

/-! ### Program memory (R21, R40, R41) -/

/-- What an address below `PLEN` that no cell lists reads as. Every byte below `PLEN` is the host's, so this is only how a
zero byte is written down (notes/assumptions/2.md). -/
def Memory.unlisted : Byte := 0x00#8

/-- The byte a list of cells holds for an address. -/
def lookupCell : List Host.Cell → Nat → Byte
  | [], _ => Memory.unlisted
  | (k, b) :: rest, a => if k = a then b else lookupCell rest a

/-- `MemRead(a, 1)`: the byte at `a`; there is none from `PLEN` up (R9, R41). -/
def Memory.read? (m : Memory) (a : Nat) : Option Byte :=
  if a < m.len then some (lookupCell m.cells a) else none

/-- Put a byte at an address, keeping the canonical form: a byte equal to `Memory.unlisted` has no cell. -/
def putCell : List Host.Cell → Nat → Byte → List Host.Cell
  | [], a, b => if b = Memory.unlisted then [] else [(a, b)]
  | (k, c) :: rest, a, b =>
    if a < k then (if b = Memory.unlisted then (k, c) :: rest else (a, b) :: (k, c) :: rest)
    else if a = k then (if b = Memory.unlisted then rest else (a, b) :: rest)
    else (k, c) :: putCell rest a b

/-- The host puts one byte of the program in place (R36 interface 1); the program grows to hold it. No instruction writes
program memory (R41). -/
def Memory.load (m : Memory) (a : Nat) (b : Byte) : Memory :=
  { len := max m.len (a + 1), cells := putCell m.cells a b }

/-- The host puts a sequence of bytes in place from an address up. -/
def Memory.loadBytes (m : Memory) (a : Nat) : List Byte → Memory
  | [] => m
  | b :: bs => (m.load a b).loadBytes (a + 1) bs

/-- The program that is a given sequence of bytes (R21). -/
def Memory.ofBytes (bs : List Byte) : Memory := Memory.empty.loadBytes 0 bs

/-- Addresses from `lo` up, strictly rising, below `len`; no cell equal to `Memory.unlisted`. -/
def cellsWf (lo len : Nat) : List Host.Cell → Bool
  | [] => true
  | (a, b) :: rest => decide (lo ≤ a) && decide (a < len) && decide (b ≠ Memory.unlisted) && cellsWf (a + 1) len rest

/-- The canonical form of program memory: equal programs are equal data. -/
def Memory.wf (m : Memory) : Bool := cellsWf 0 m.len m.cells

/-- The bytes a fetch at `a` may read: the opcode byte and the byte after it, as far as they exist (R84, R86). -/
def Memory.window (m : Memory) (a : Nat) : List Byte := (m.read? a).toList ++ (m.read? (a + 1)).toList

/-! ### Stacks (R8) -/

/-- `push(s, v)`: `v` becomes the last element, the top. -/
def pushTop {α : Type} (xs : List α) (v : α) : List α := xs ++ [v]

/-- `pop(s)`: the stack without its top, and the top; `none` when it is empty. -/
def pop? {α : Type} (xs : List α) : Option (List α × α) :=
  match xs.getLast? with
  | none => none
  | some v => some (xs.dropLast, v)

/-- The stack without its two topmost elements, the second and the top; `none` when there are fewer than two. -/
def pop2? {α : Type} (xs : List α) : Option (List α × α × α) :=
  match pop? xs with
  | none => none
  | some (ys, top) =>
    match pop? ys with
    | none => none
    | some (zs, second) => some (zs, second, top)

/-! ### Updates of State, one per kind of change -/

/-- `pc <- p` -/
def State.setPc (s : State) (p : Nat) : State := { s with pc := p }

/-- The operand stack becomes `xs`. -/
def State.setOs (s : State) (xs : List Value) : State := { s with os := xs }

/-- The call stack becomes `xs`. -/
def State.setCs (s : State) (xs : List Nat) : State := { s with cs := xs }

/-- `fp <- f` -/
def State.setFp (s : State) (f : Nat) : State := { s with fp := f }

/-- `status <- Halted` -/
def State.halt (s : State) : State := { s with status := .halted }

/-- `emit(p, v)`: the event is always accepted (R9, R106; D26). -/
def State.emit (s : State) (p : Nat) (v : Value) : State := { s with out := pushTop s.out { pc := p, value := v } }

/-- The state fault entry leaves: `status <- Faulted`, `fault_kind <- K`, `fault_pc <- p`, `pc <- p` (R161). -/
def State.enterFault (s : State) (k : FaultKind) (p : Nat) : State :=
  { s with status := .faulted, faultKind := k, faultPc := p, pc := p }

/-- Once the opcode is recognised, `pc <- a + 1` (spec/40_dispatch.md R85). -/
def State.afterOpcode (s : State) : State := s.setPc (s.pc + 1)

/-- Once the operand byte is consumed, `pc <- pc + 1` (R86). -/
def State.afterOperand (s : State) : State := s.setPc (s.pc + 1)

/-! ### Fault entry -/

/-- `raise K`: taking a fault, the machine's one exception mechanism (R161). The reported program counter is the value `pc`
has when the failing check is made (R168; D2); `os`, `cs`, `fp` and `out` are as they were, since a meaning makes every
check before its first change to them (D1). -/
def raise (k : FaultKind) (s : State) : Result := .next (s.enterFault k s.pc)

/-! ### Arithmetic (R10, R107) -/

/-- `wrap32(z)`: the 32-bit value equal to `z` modulo 2^32 (R10; D6). -/
def wrap32 (z : Int) : Value := BitVec.ofInt 32 z

/-- Narrow an exact result to 32 bits by the build's overflow rule (R6 `OVF`). -/
def narrow (ovf : OverflowRule) (z : Int) : Value :=
  match ovf with
  | .wrap => wrap32 z

/-- `tdiv(x, y)`: the quotient truncated toward zero, by the spec's formula (R10). -/
def tdiv (x y : Int) : Int := x.sign * y.sign * ((x.natAbs / y.natAbs : Nat) : Int)

/-- `top + second` (R102) -/
def addValue (ovf : OverflowRule) (top second : Value) : Value := narrow ovf (top.toInt + second.toInt)

/-- `top - second` (R103) -/
def subValue (ovf : OverflowRule) (top second : Value) : Value := narrow ovf (top.toInt - second.toInt)

/-- `top * second` (R104) -/
def mulValue (ovf : OverflowRule) (top second : Value) : Value := narrow ovf (top.toInt * second.toInt)

/-- `top / second`, truncated toward zero (R105) -/
def divValue (ovf : OverflowRule) (top second : Value) : Value := narrow ovf (tdiv top.toInt second.toInt)

/-! ### Numeric codes (R26, R160; D12) -/

/-- The code of a status (R26; D12). -/
def Status.code : Status → Nat
  | .running => 0
  | .halted => 1
  | .faulted => 2

/-- The code of a fault kind (R160; D12). -/
def FaultKind.code : FaultKind → Nat
  | .noFault => 0
  | .unknownOpcode => 1
  | .stackUnderflow => 2
  | .outOfBoundsAccess => 3
  | .divisionByZero => 4
  | .programCounterOutOfRange => 5
  | .stackOverflow => 6

end Sys2Proof.Machine
end

