-- ==== Sys2Proof/Machine/Operands.lean ====
section
/-! DEFINITION. The operand forms beyond the immediate byte: the operand-stack cells an instruction pops or pushes
(spec/41_operand_stack.md R100, R109) and the two frame-relative addressing modes (spec/44_local_param.md R140). -/

namespace Sys2Proof.Machine

/-! ### Frame-relative addresses (R140), in exact integer arithmetic (R7) -/

/-- Local mode: `addr = fp + i`. -/
def localAddr (fp idx : Nat) : Int := (fp : Int) + (idx : Int)

/-- Parameter mode: `addr = fp - (i + 1)`, negative exactly when `i + 1 > fp`. -/
def paramAddr (fp idx : Nat) : Int := (fp : Int) - ((idx : Int) + 1)

/-- The cell an address names among `n` cells: the address when `0 <= addr < n`, else none (R140). -/
def slotIndex (addr : Int) (n : Nat) : Option Nat :=
  if 0 ≤ addr ∧ addr < (n : Int) then some addr.toNat else none

/-- The value of the cell at an address; `none` where the address is invalid. -/
def readSlot (xs : List Value) (addr : Int) : Option Value :=
  match slotIndex addr xs.length with
  | none => none
  | some k => xs[k]?

/-- The stack with the cell at an address overwritten; `none` where the address is invalid. -/
def writeSlot (xs : List Value) (addr : Int) (v : Value) : Option (List Value) :=
  match slotIndex addr xs.length with
  | none => none
  | some k => some (xs.set k v)

/-! ### Capacities (R109, R120, R167; D11) -/

/-- `len(os) = OS_CAP`, in a build with a finite `OS_CAP`. -/
def State.osFull (s : State) : Bool :=
  match s.cfg.osCap with
  | none => false
  | some n => decide (s.os.length = n)

/-- `len(cs) + 2 > CS_CAP`, in a build with a finite `CS_CAP`. -/
def State.csFull (s : State) : Bool :=
  match s.cfg.csCap with
  | none => false
  | some n => decide (n < s.cs.length + 2)

/-! ### Shared shapes of meanings. Each is called with the `pc` its failing checks report. -/

/-- The push of PUSH, LOAD_LOCAL and LOAD_PARAM: `StackOverflow` when the stack is full, else the push (R109). -/
def pushValue (v : Value) (s : State) : Result :=
  if s.osFull then raise .stackOverflow s else .next (s.setOs (pushTop s.os v))

/-- ADD, SUB and MUL: pop `top` and `second`, push `f top second` (R100). -/
def arith (f : Value → Value → Value) (s : State) : Result :=
  match pop2? s.os with
  | none => raise .stackUnderflow s
  | some (rest, second, top) => .next (s.setOs (pushTop rest (f top second)))

/-- LOAD_LOCAL and LOAD_PARAM at an address: bounds against `len(os)`, then the push (R142, R144). -/
def loadSlot (addr : Int) (s : State) : Result :=
  match readSlot s.os addr with
  | none => raise .outOfBoundsAccess s
  | some v => pushValue v s

/-- STORE_LOCAL and STORE_PARAM at an address: underflow, then bounds against the length after the pop, then the pop and the
write (R141, R143; D8). -/
def storeSlot (addr : Int) (s : State) : Result :=
  match pop? s.os with
  | none => raise .stackUnderflow s
  | some (rest, v) =>
    match writeSlot rest addr v with
    | none => raise .outOfBoundsAccess s
    | some xs => .next (s.setOs xs)

end Sys2Proof.Machine
end

