-- ==== Sys2Proof/Machine/CallFrame.lean ====
section
/-! DEFINITION. The call and frame manager: CALL, RETURN (spec/42_call_frame.md R120, R121). A meaning is called with
`pc = a`, the address of the opcode byte. -/

namespace Sys2Proof.Machine

/-- CALL addr8: the return address `a + 2` and then the caller's `fp` go onto `cs`, `fp <- len(os)`, `pc <- target` (R120).
The target is always the immediate operand (R126). -/
def execCall (target : Nat) (s : State) : Result :=
  if s.csFull then raise .stackOverflow s.afterOpcode.afterOperand
  else .next (((s.setCs (pushTop (pushTop s.cs s.afterOpcode.afterOperand.pc) s.fp)).setFp s.os.length).setPc target)

/-- RETURN: the top entry is the saved `fp`, the one below it the return address; fewer than two entries is an underflow that
consumes nothing (R121; D23). -/
def execRet (s : State) : Result :=
  match pop2? s.cs with
  | none => raise .stackUnderflow s.afterOpcode
  | some (rest, returnPc, savedFp) => .next (((s.setCs rest).setFp savedFp).setPc returnPc)

end Sys2Proof.Machine
end

