-- ==== Sys2Proof/Machine/Flags.lean ====
section
/-! DEFINITION. The hardware has no flags, condition codes or predicates (spec/10_state.md R29), and no arithmetic
instruction records carry, overflow, zero or sign. The one test it makes on a value is JUMP_IF's (spec/43_control_flow.md
R131, R134). -/

namespace Sys2Proof.Machine

/-- JUMP_IF's condition: the whole 32-bit value is tested, so negative values are nonzero too (R131; D24). -/
def isNonzero (c : Value) : Bool := decide (c ≠ 0#32)

end Sys2Proof.Machine
end

