-- ==== Sys2Proof/Machine/ControlFlow.lean ====
section
/-! DEFINITION. The control-flow unit: JUMP, JUMP_IF (spec/43_control_flow.md R130, R131), and the dispatcher's own HALT
(spec/40_dispatch.md R89). A meaning is called with `pc = a`, the address of the opcode byte. -/

namespace Sys2Proof.Machine

/-- JUMP addr8: an absolute target, not checked here (R130, R132). -/
def execJump (target : Nat) (s : State) : Result := .next (s.setPc target)

/-- JUMP_IF addr8: underflow is checked before the operand is fetched, so it reports `a + 1`; the condition is popped on
both paths (R131; D17). -/
def execJumpIf (target : Nat) (s : State) : Result :=
  match pop? s.os with
  | none => raise .stackUnderflow s.afterOpcode
  | some (rest, c) =>
    if isNonzero c then .next ((s.setOs rest).setPc target) else .next (s.afterOpcode.afterOperand.setOs rest)

/-- HALT: `status <- Halted`, `pc` stays `a + 1`, nothing else changes (R89; D19). -/
def execHalt (s : State) : Result := .next s.afterOpcode.halt

end Sys2Proof.Machine
end

