-- ==== Sys2Proof/Machine/LocalParam.lean ====
section
/-! DEFINITION. The local and parameter accessor: STORE_LOCAL, LOAD_LOCAL, STORE_PARAM, LOAD_PARAM
(spec/44_local_param.md R141 to R144). A meaning is called with `pc = a`, the address of the opcode byte; every check comes
after the operand fetch, so its fault reports `a + 2` (R168). -/

namespace Sys2Proof.Machine

/-- STORE_LOCAL idx8 (R141). -/
def execStoreLocal (idx : Nat) (s : State) : Result := storeSlot (localAddr s.fp idx) s.afterOpcode.afterOperand

/-- LOAD_LOCAL idx8 (R142). -/
def execLoadLocal (idx : Nat) (s : State) : Result := loadSlot (localAddr s.fp idx) s.afterOpcode.afterOperand

/-- STORE_PARAM idx8 (R143). -/
def execStoreParam (idx : Nat) (s : State) : Result := storeSlot (paramAddr s.fp idx) s.afterOpcode.afterOperand

/-- LOAD_PARAM idx8 (R144). -/
def execLoadParam (idx : Nat) (s : State) : Result := loadSlot (paramAddr s.fp idx) s.afterOpcode.afterOperand

end Sys2Proof.Machine
end

