-- ==== Sys2Proof/Machine/OperandStack.lean ====
section
/-! DEFINITION. The operand stack unit: PUSH, ADD, SUB, MUL, DIV, PRINT (spec/41_operand_stack.md R101 to R106). A meaning
is called with `pc = a`, the address of the opcode byte. -/

namespace Sys2Proof.Machine

/-- PUSH imm8 (R101). -/
def execPush (imm : Int) (s : State) : Result := pushValue (wrap32 imm) s.afterOpcode.afterOperand

/-- ADD (R102). -/
def execAdd (s : State) : Result := arith (addValue s.cfg.ovf) s.afterOpcode

/-- SUB: `top - second` (R103). -/
def execSub (s : State) : Result := arith (subValue s.cfg.ovf) s.afterOpcode

/-- MUL (R104). -/
def execMul (s : State) : Result := arith (mulValue s.cfg.ovf) s.afterOpcode

/-- DIV: `top / second`; underflow is checked before the zero divisor (R105; D18). -/
def execDiv (s : State) : Result :=
  match pop2? s.os with
  | none => raise .stackUnderflow s.afterOpcode
  | some (rest, second, top) =>
    if second = 0#32 then raise .divisionByZero s.afterOpcode
    else .next (s.afterOpcode.setOs (pushTop rest (divValue s.cfg.ovf top second)))

/-- PRINT: the event carries the `pc` after the opcode byte, `a + 1` (R106; D5). -/
def execPrint (s : State) : Result :=
  match pop? s.os with
  | none => raise .stackUnderflow s.afterOpcode
  | some (rest, v) => .next ((s.afterOpcode.setOs rest).emit s.afterOpcode.pc v)

/-- The informative text line of an output event, with decimal numerals (R106; D22). Its exact form is outside the spec's
scope (R5 d); no step depends on it. -/
def OutputEvent.line (e : OutputEvent) : String :=
  "[pc: " ++ toString e.pc ++ "] printing value " ++ toString e.value.toInt

end Sys2Proof.Machine
end

