-- ==== Sys2Proof/Machine/Dispatch.lean ====
section
/-! DEFINITION. Dispatch: the recognised opcode selects exactly one instruction's meaning (spec/40_dispatch.md R87). -/

namespace Sys2Proof.Machine

def exec (i : Instr) (s : State) : Host.Outcome State Fault Refusal :=
  match i with
  | .push imm => Sys2Proof.Machine.execPush imm s
  | .add => Sys2Proof.Machine.execAdd s
  | .sub => Sys2Proof.Machine.execSub s
  | .mul => Sys2Proof.Machine.execMul s
  | .div => Sys2Proof.Machine.execDiv s
  | .print => Sys2Proof.Machine.execPrint s
  | .call target => Sys2Proof.Machine.execCall target s
  | .ret => Sys2Proof.Machine.execRet s
  | .jump target => Sys2Proof.Machine.execJump target s
  | .jumpIf target => Sys2Proof.Machine.execJumpIf target s
  | .storeLocal idx => Sys2Proof.Machine.execStoreLocal idx s
  | .loadLocal idx => Sys2Proof.Machine.execLoadLocal idx s
  | .storeParam idx => Sys2Proof.Machine.execStoreParam idx s
  | .loadParam idx => Sys2Proof.Machine.execLoadParam idx s
  | .halt => Sys2Proof.Machine.execHalt s

end Sys2Proof.Machine
end

