-- ==== Sys2Proof/Machine/Fetch.lean ====
section
/-! DEFINITION. What a step finds at the program counter before it dispatches (spec/40_dispatch.md R82 to R86), and what it
does where no instruction stands there. -/

namespace Sys2Proof.Machine

/-- What stands at the program counter. -/
inductive Fetched where
  /-- `pc = PLEN` (R82) -/
  | endOfProgram
  /-- `pc > PLEN` (R83) -/
  | beyondEnd
  /-- a byte that is not one of the 15 opcodes (R84) -/
  | unknownOpcode
  /-- a two-byte opcode in the last byte of the program (R68, R86) -/
  | truncated (op : Opcode)
  /-- a whole instruction -/
  | instr (i : Instr)
deriving DecidableEq, Repr

/-- Fetch and decode at `pc`, the checks in the order R82, R83, R84 (R81). `noByte` cannot come up below `PLEN`
(`fetch_of_lt`). -/
def fetch (s : State) : Fetched :=
  if s.pc = s.prog.len then .endOfProgram
  else if s.prog.len < s.pc then .beyondEnd
  else
    match decode (s.prog.window s.pc) with
    | .instr i _ => .instr i
    | .unknownOpcode _ => .unknownOpcode
    | .truncated op => .truncated op
    | .noByte => .endOfProgram

/-- End of program: `status <- Halted`, `pc` stays `PLEN` (R82). -/
def haltAtEnd (s : State) : Result := .next s.halt

/-- `pc > PLEN`: the bad target is the reported `pc` (R83; D9). -/
def faultBeyondEnd (s : State) : Result := raise .programCounterOutOfRange s

/-- An unlisted opcode byte: reported at its own address, before the `pc` advance (R84; D3). -/
def faultUnknownOpcode (s : State) : Result := raise .unknownOpcode s

/-- The operand fetch of a truncated instruction raises `ProgramCounterOutOfRange(a + 1)` (R86; D4); JUMP_IF alone checks
its condition first (R131; D17). -/
def faultTruncated (op : Opcode) (s : State) : Result :=
  if op = .jumpIf ∧ s.os.length < 1 then raise .stackUnderflow s.afterOpcode
  else raise .programCounterOutOfRange s.afterOpcode

/-- Load an instruction's bytes at the program counter of a running engine; a running engine records no fault (R27). -/
def State.loadAtPc (s : State) (bs : List Byte) : State :=
  { s with prog := s.prog.loadBytes s.pc bs, status := .running, faultKind := .noFault, faultPc := 0 }

end Sys2Proof.Machine
end

