-- ==== Sys2Proof/Machine/Step.lean ====
section
/-! DEFINITION. One step of the engine (spec/40_dispatch.md R81). A terminal state has no step (R26). -/

namespace Sys2Proof.Machine

/-- One step: the checks of R82 to R84, then the instruction's own rule (R81, R87). -/
def step (s : State) : Host.Outcome State Fault Refusal :=
  match s.status with
  | .halted => .fault .haltedHasNoStep
  | .faulted => .fault .faultedHasNoStep
  | .running =>
    match fetch s with
    | .endOfProgram => haltAtEnd s
    | .beyondEnd => faultBeyondEnd s
    | .unknownOpcode => faultUnknownOpcode s
    | .truncated op => faultTruncated op s
    | .instr i => exec i s

/-- `s` with the instruction whose bits are `w` stored at the program counter and the engine running, so that the next step
runs exactly it (notes/assumptions/4.md). -/
def State.withFetchWord (s : State) (nbits w : Nat) : State := s.loadAtPc (wordBytes nbits w)

end Sys2Proof.Machine
end

