-- ==== Sys2Proof/Machine/Run.lean ====
section
/-! DEFINITION. What the host may do with an engine (spec/10_state.md R36, spec/60_exceptions.md R179): reset it, run it, and
read the outcome. -/

namespace Sys2Proof.Machine

/-- The result `run` reports (R36 interface 4, R80). -/
structure RunOutcome where
  status : Status
  faultKind : FaultKind
  faultPc : Nat
deriving DecidableEq, Repr

/-- The result registers of a state (R36). -/
def State.outcome (s : State) : RunOutcome := { status := s.status, faultKind := s.faultKind, faultPc := s.faultPc }

/-- Reset by the host, from whatever state: construction again with the program in place (R190; D21). -/
def State.hostReset (s : State) : State := State.construct s.cfg s.prog

/-- `run` under fuel: while `status = Running`, take one step (R80). On a terminal engine it takes none (D21). -/
def run : Nat → State → State
  | 0, s => s
  | fuel + 1, s =>
    match step s with
    | .next t => run fuel t
    | .fault _ => s
    | .refused _ => s

end Sys2Proof.Machine
end

