-- ==== Sys2Proof/Safety.lean ====
section
/-! DEFINITION. What claims are stated in: runs of steps, what a run that ends well is, and the invariant of the engine. -/

namespace Sys2Proof.Machine

/-- The bytes `bs` stand in the program at the program counter. -/
def State.CodeAt (s : State) (bs : List Byte) : Prop := ∀ k, k < bs.length → s.prog.read? (s.pc + k) = bs[k]?

/-- What a fault of kind `k` reported at `p` leaves: `os`, `cs`, `fp`, `out` and the program as they were (R161). -/
def State.asFaulted (s : State) (k : FaultKind) (p : Nat) : State :=
  { s with status := .faulted, faultKind := k, faultPc := p, pc := p }

/-- How many cells of the operand stack an instruction needs, which is how many it pops (R163, R22). -/
def osNeeded : Instr → Nat
  | .add | .sub | .mul | .div => 2
  | .print | .jumpIf _ | .storeLocal _ | .storeParam _ => 1
  | .push _ | .loadLocal _ | .loadParam _ | .jump _ | .call _ | .ret | .halt => 0

/-- How many entries of the call stack an instruction needs (R163). -/
def csNeeded : Instr → Nat
  | .ret => 2
  | .push _ | .add | .sub | .mul | .div | .print | .call _ | .jump _ | .jumpIf _ | .storeLocal _ | .loadLocal _
  | .storeParam _ | .loadParam _ | .halt => 0

/-- The 241 byte values that are no opcode (R66). -/
abbrev IllegalByte (b : Byte) : Prop :=
  b.toNat = 0x00 ∨ (0x07 ≤ b.toNat ∧ b.toNat ≤ 0x0F) ∨ (0x14 ≤ b.toNat ∧ b.toNat ≤ 0x1F) ∨
    (0x24 ≤ b.toNat ∧ b.toNat ≤ 0xFE)

/-- `t` is reached from `s` by steps, and the call stack of every state on the way, `s` and `t` included, has at least `n`
entries. With `n = 0` this is plain reachability. -/
inductive StepsAbove (n : Nat) : State → State → Prop where
  | refl {s : State} (h : n ≤ s.cs.length) : StepsAbove n s s
  | tail {s t u : State} (h : StepsAbove n s t) (hstep : step t = .next u) (hu : n ≤ u.cs.length) : StepsAbove n s u

/-- A safe run: no state on it has faulted. -/
def State.NeverFaults (s : State) : Prop := ∀ t, StepsAbove 0 s t → t.status ≠ .faulted

/-- The saved pairs of a call stack, bottom first: every return address is at most `plen`, and every saved frame pointer
satisfies `okFp`. -/
def framesOk (plen : Nat) (okFp : Nat → Bool) : List Nat → Bool
  | returnPc :: savedFp :: rest => decide (returnPc ≤ plen) && okFp savedFp && framesOk plen okFp rest
  | _ => true

/-- A frame pointer a build with this `OS_CAP` can form: it was the length of an operand stack. -/
def fpOk (osCap : Option Nat) (f : Nat) : Bool :=
  match osCap with
  | none => true
  | some n => decide (f ≤ n)

/-- The invariant of the engine: what holds at reset and after every step (R25, R27, R33, R34 and the bounds of R6). -/
structure Inv (s : State) : Prop where
  /-- program memory is in its canonical form -/
  progWf : s.prog.wf = true
  /-- `pc` never exceeds `max(PLEN, 255)` (R25) -/
  pcBound : s.pc ≤ max s.prog.len 255
  /-- the call stack holds whole pairs (R34) -/
  csEven : s.cs.length % 2 = 0
  /-- a return address was at most `PLEN` when saved (R25, R121) -/
  frames : framesOk s.prog.len (fpOk s.cfg.osCap) s.cs = true
  /-- the frame pointer was once a length of the operand stack (R24) -/
  fpBound : fpOk s.cfg.osCap s.fp = true
  /-- the operand stack fits its capacity (R6) -/
  osBound : ∀ n, s.cfg.osCap = some n → s.os.length ≤ n
  /-- the call stack fits its capacity (R6) -/
  csBound : ∀ n, s.cfg.csCap = some n → s.cs.length ≤ n
  /-- no fault is recorded while not faulted (R27; D12) -/
  noReport : s.status ≠ .faulted → s.faultKind = .noFault ∧ s.faultPc = 0
  /-- a faulted engine reports a fault, and `pc` holds the reported value (R27, R168) -/
  report : s.status = .faulted → s.faultKind ≠ .noFault ∧ s.faultPc = s.pc
  /-- an output event carries the address after a PRINT inside the program (R106) -/
  events : ∀ e ∈ s.out, 1 ≤ e.pc ∧ e.pc ≤ s.prog.len

end Sys2Proof.Machine
end

