-- ==== Sys2Proof/Certificates/Slice0/Obligations.lean ====
section
/-! DEFINITION. The statements for the provers. Each docstring names the rule of spec/ it formalises, and the decision D<n>
of spec/92_eei_decisions.md (with its entry in notes/assumptions) where a clause rests on one. -/

open Sys2Proof Sys2Proof.Machine

/-! ### Encoding (spec/30_encoding.md) -/

/-- R61 to R64: no bit of an encoding is dropped, for every well-formed instruction and whatever bytes follow. -/
def Obligations.DecodeUndoesEncode : Prop :=
  ∀ (i : Instr) (rest : List Byte), i.wf = true → decode (encode i ++ rest) = .instr i rest

/-- R60 to R64: the bytes an instruction is decoded from are its encoding, and what the decoder gives is well formed. -/
def Obligations.DecodedBytesAreTheEncoding : Prop :=
  ∀ (bs : List Byte) (i : Instr) (rest : List Byte), decode bs = .instr i rest → i.wf = true ∧ bs = encode i ++ rest

/-- R61 to R64: the opcode map, row by row, with the three operand kinds; no other byte is recognised. -/
def Obligations.OpcodeMapDecodes : Prop :=
  ∀ (v : Byte) (rest : List Byte),
    decode (0x01#8 :: v :: rest) = .instr (.push (if v.toNat < 128 then (v.toNat : Int) else (v.toNat : Int) - 256)) rest ∧
    decode (0x02#8 :: rest) = .instr .add rest ∧
    decode (0x03#8 :: rest) = .instr .sub rest ∧
    decode (0x04#8 :: rest) = .instr .mul rest ∧
    decode (0x05#8 :: rest) = .instr .div rest ∧
    decode (0x06#8 :: rest) = .instr .print rest ∧
    decode (0x10#8 :: v :: rest) = .instr (.call v.toNat) rest ∧
    decode (0x11#8 :: rest) = .instr .ret rest ∧
    decode (0x12#8 :: v :: rest) = .instr (.jump v.toNat) rest ∧
    decode (0x13#8 :: v :: rest) = .instr (.jumpIf v.toNat) rest ∧
    decode (0x20#8 :: v :: rest) = .instr (.storeLocal v.toNat) rest ∧
    decode (0x21#8 :: v :: rest) = .instr (.loadLocal v.toNat) rest ∧
    decode (0x22#8 :: v :: rest) = .instr (.storeParam v.toNat) rest ∧
    decode (0x23#8 :: v :: rest) = .instr (.loadParam v.toNat) rest ∧
    decode (0xFF#8 :: rest) = .instr .halt rest ∧
    ∀ b ∉ [0x01#8, 0x02#8, 0x03#8, 0x04#8, 0x05#8, 0x06#8, 0x10#8, 0x11#8, 0x12#8, 0x13#8, 0x20#8, 0x21#8, 0x22#8,
      0x23#8, 0xFF#8], decode (b :: rest) = .unknownOpcode b

/-- R66 and R162: the 241 byte values outside the map are exactly the ones the decoder rejects, and a step that meets one at
`pc` raises `UnknownOpcode` at the address of that byte, with `pc` not advanced and nothing else touched. -/
def Obligations.IllegalByteFaultsAtItsAddress : Prop :=
  (∀ (b : Byte) (rest : List Byte), decode (b :: rest) = .unknownOpcode b ↔ IllegalByte b) ∧
  ((List.range 256).filter (fun n => (opcodeOfByte (BitVec.ofNat 8 n)).isNone)).length = 241 ∧
  ∀ (s : State) (b : Byte), s.status = .running → s.prog.read? s.pc = some b → IllegalByte b →
    step s = .next { s with status := .faulted, faultKind := .unknownOpcode, faultPc := s.pc } ∧
    ∀ t, step s = .next t → t.prog.read? t.faultPc = some b

/-- R65: the first byte alone decides the length, 1 or 2; every other value is not an instruction and has no length. -/
def Obligations.FirstByteDecidesLength : Prop :=
  (∀ b ∈ [0x01#8, 0x10#8, 0x12#8, 0x13#8, 0x20#8, 0x21#8, 0x22#8, 0x23#8],
    (∀ (v : Byte) (rest : List Byte), ∃ i, decode (b :: v :: rest) = .instr i rest ∧ encode i = [b, v]) ∧
    ∀ i rest, decode [b] ≠ .instr i rest) ∧
  (∀ b ∈ [0x02#8, 0x03#8, 0x04#8, 0x05#8, 0x06#8, 0x11#8, 0xFF#8],
    ∀ (rest : List Byte), ∃ i, decode (b :: rest) = .instr i rest ∧ encode i = [b]) ∧
  (∀ (b : Byte), IllegalByte b → ∀ (tail : List Byte) i rest, decode (b :: tail) ≠ .instr i rest) ∧
  ∀ i : Instr, (encode i).length = 1 ∨ (encode i).length = 2

/-- A sanity statement: words written out from the listings of spec/95_test_vectors.md decode to what they stand for. -/
def Obligations.ListedWordsDecode : Prop :=
  decode [0x01#8, 0xFD#8] = .instr (.push (-3)) [] ∧
  decode [0x05#8] = .instr .div [] ∧
  decode [0x10#8, 0x08#8, 0x06#8] = .instr (.call 8) [0x06#8] ∧
  decode [0x13#8, 0x0D#8] = .instr (.jumpIf 13) [] ∧
  decode [0x23#8, 0x01#8] = .instr (.loadParam 1) [] ∧
  decode [0xFF#8] = .instr .halt [] ∧
  decode [0x99#8] = .unknownOpcode 0x99#8 ∧
  decode [0x20#8] = .truncated .storeLocal

/-- R63, R132: every operand an instruction fetched at `pc` carries is the byte after its opcode; a target is that byte as an
absolute, unsigned address, so it is at most 255. -/
def Obligations.TargetsAreTheOperandByte : Prop :=
  ∀ (s : State) (i : Instr) (target : Nat), fetch s = .instr i →
    i = .jump target ∨ i = .jumpIf target ∨ i = .call target →
    target ≤ 255 ∧ s.prog.read? (s.pc + 1) = some (BitVec.ofNat 8 target)

/-! ### Reset and the host's operations (spec/10_state.md R35, spec/70_reset_and_hazards.md R190) -/

/-- R35 and R190, with the values of D12 for a fault not recorded (notes/assumptions/15.md): the state after reset, and the
same fields after a host reset from any state, which keeps the program and the build. -/
def Obligations.ResetLeavesTheSpecState : Prop :=
  (State.reset.pc = 0 ∧ State.reset.os = [] ∧ State.reset.cs = [] ∧ State.reset.fp = 0 ∧
    State.reset.status = .running ∧ State.reset.faultKind = .noFault ∧ State.reset.faultPc = 0 ∧ State.reset.out = []) ∧
  ∀ s : State, s.hostReset = { s with
    pc := 0, os := [], cs := [], fp := 0, status := .running, faultKind := .noFault, faultPc := 0, out := [] }

/-- The invariant holds at reset, and in every engine constructed from a build and a sequence of bytes. Its clause `progWf` is
the model's choice (notes/assumptions/2.md, DESIGN CHOICE: the canonical form of program memory), and `noReport` is D12's
(notes/assumptions/15.md: the values of a fault not recorded). -/
def Obligations.ResetMeetsTheInvariant : Prop :=
  Inv State.reset ∧ ∀ (cfg : Config) (bs : List Byte), Inv (State.construct cfg (Memory.ofBytes bs))

/-! ### The step (spec/40_dispatch.md) -/

/-- R81, R84 to R87: a running engine at whose `pc` the encoding of an instruction stands executes that instruction. -/
def Obligations.StepRunsTheDecodedInstruction : Prop :=
  (∀ (s : State) (i : Instr), s.status = .running → i.wf = true → s.CodeAt (encode i) → step s = exec i s) ∧
  ∀ (s : State) (i : Instr) (rest : List Byte), s.status = .running →
    decode (s.prog.window s.pc) = .instr i rest → step s = exec i s

/-- R82 (D9, notes/assumptions/12.md): a step that begins with `pc = PLEN` halts and changes nothing else. -/
def Obligations.EndOfProgramHalts : Prop :=
  ∀ s : State, s.status = .running → s.pc = s.prog.len → step s = .next { s with status := .halted }

/-- R83 (D9, notes/assumptions/12.md): a step that begins with `pc > PLEN` faults and reports that `pc`. -/
def Obligations.PcBeyondTheEndFaults : Prop :=
  ∀ s : State, s.status = .running → s.prog.len < s.pc →
    step s = .next { s with status := .faulted, faultKind := .programCounterOutOfRange, faultPc := s.pc }

/-- R68, R86 (D4, D17; notes/assumptions/8.md, 16.md): a two-byte opcode in the last byte of the program raises
`ProgramCounterOutOfRange(a + 1)`, but a JUMP_IF with no condition raises `StackUnderflow(a + 1)` first. -/
def Obligations.TruncatedInstructionFaults : Prop :=
  ∀ (s : State) (b : Byte), s.status = .running → s.prog.read? s.pc = some b → s.pc + 1 = s.prog.len →
    b ∈ [0x01#8, 0x10#8, 0x12#8, 0x13#8, 0x20#8, 0x21#8, 0x22#8, 0x23#8] →
    step s = .next (s.asFaulted (if b = 0x13#8 ∧ s.os = [] then .stackUnderflow else .programCounterOutOfRange) (s.pc + 1))

/-- R26, R81 (D21; notes/assumptions/5.md, 18.md): a terminal state has no step, and `run` leaves it as it is. -/
def Obligations.TerminalStatesHaveNoStep : Prop :=
  ∀ s : State,
    (s.status = .halted → step s = .fault .haltedHasNoStep) ∧
    (s.status = .faulted → step s = .fault .faultedHasNoStep) ∧
    (s.status ≠ .running → ∀ fuel, run fuel s = s)

/-- R197: a step exists exactly while Running; Halted is reached only at `pc = PLEN` or by a HALT, Faulted only by fault
entry. -/
def Obligations.RunEndsOnlyByHaltOrFault : Prop :=
  (∀ s : State, (∃ t, step s = .next t) ↔ s.status = .running) ∧
  ∀ s t : State, step s = .next t →
    (t.status = .halted ↔ s.pc = s.prog.len ∨ s.prog.read? s.pc = some 0xFF#8) ∧
    (t.status = .faulted → ∃ k, k ≠ FaultKind.noFault ∧ t = s.asFaulted k t.faultPc)

/-- Every instruction has a next state in every state: there is no refusal, and a fault of the spec is a next state. -/
def Obligations.EveryInstructionHasANextState : Prop :=
  ∀ (i : Instr) (s : State), ∃ t, exec i s = .next t

/-! ### The operand stack unit (spec/41_operand_stack.md) -/

/-- R101: PUSH appends the operand byte sign-extended to 32 bits and leaves `pc = a + 2`; the missing operand byte faults at
`a + 1`, and a full stack of a finite build at `a + 2`. -/
def Obligations.PushPushesTheSignExtendedByte : Prop :=
  (∀ (s : State) (imm : Int) (v : Value), s.cfg.osCap ≠ some s.os.length → v.toInt = imm →
    exec (.push imm) s = .next { s with pc := s.pc + 2, os := s.os ++ [v] }) ∧
  (∀ (s : State) (imm : Int), s.cfg.osCap = some s.os.length →
    exec (.push imm) s = .next (s.asFaulted .stackOverflow (s.pc + 2))) ∧
  (∀ (s : State) (b : Byte), s.status = .running → s.prog.read? s.pc = some 0x01#8 → s.prog.read? (s.pc + 1) = some b →
    s.cfg.osCap ≠ some s.os.length → step s = .next { s with pc := s.pc + 2, os := s.os ++ [b.signExtend 32] }) ∧
  (∀ s : State, s.status = .running → s.prog.read? s.pc = some 0x01#8 → s.pc + 1 = s.prog.len →
    step s = .next (s.asFaulted .programCounterOutOfRange (s.pc + 1)))

/-- R102 (D6; notes/assumptions/10.md): ADD replaces the two top cells by `wrap32(top + second)`; nothing else changes. -/
def Obligations.AddPushesTheWrappedSum : Prop :=
  ∀ (s : State) (rest : List Value) (second top r : Value), s.cfg.ovf = .wrap → s.os = rest ++ [second, top] →
    r.toInt = (top.toInt + second.toInt).bmod (2 ^ 32) →
    exec .add s = .next { s with pc := s.pc + 1, os := rest ++ [r] }

/-- R103 (D6; notes/assumptions/10.md): SUB replaces the two top cells by `wrap32(top - second)`; nothing else changes. -/
def Obligations.SubPushesTheWrappedDifference : Prop :=
  ∀ (s : State) (rest : List Value) (second top r : Value), s.cfg.ovf = .wrap → s.os = rest ++ [second, top] →
    r.toInt = (top.toInt - second.toInt).bmod (2 ^ 32) →
    exec .sub s = .next { s with pc := s.pc + 1, os := rest ++ [r] }

/-- R104 (D6; notes/assumptions/10.md): MUL replaces the two top cells by `wrap32(top * second)`; nothing else changes. -/
def Obligations.MulPushesTheWrappedProduct : Prop :=
  ∀ (s : State) (rest : List Value) (second top r : Value), s.cfg.ovf = .wrap → s.os = rest ++ [second, top] →
    r.toInt = (top.toInt * second.toInt).bmod (2 ^ 32) →
    exec .mul s = .next { s with pc := s.pc + 1, os := rest ++ [r] }

/-- R105 (D7; notes/assumptions/10.md): DIV by a nonzero `second` replaces the two top cells by the quotient truncated toward
zero, wrapped; nothing else changes. -/
def Obligations.DivPushesTheTruncatedQuotient : Prop :=
  ∀ (s : State) (rest : List Value) (second top r : Value), s.cfg.ovf = .wrap → s.os = rest ++ [second, top] →
    second.toInt ≠ 0 → r.toInt = (Int.tdiv top.toInt second.toInt).bmod (2 ^ 32) →
    exec .div s = .next { s with pc := s.pc + 1, os := rest ++ [r] }

/-- R165: DIV raises `DivisionByZero` when `second = 0`, after the underflow check; a zero on top is a zero dividend. -/
def Obligations.ZeroDivisorFaultsZeroDividendDoesNot : Prop :=
  (∀ (s : State) (rest : List Value) (top : Value), s.os = rest ++ [0#32, top] →
    ∃ p, exec .div s = .next (s.asFaulted .divisionByZero p)) ∧
  (∀ s : State, s.os.length < 2 → ∃ p, exec .div s = .next (s.asFaulted .stackUnderflow p)) ∧
  (∀ (s : State) (rest : List Value) (second : Value), s.os = rest ++ [second, 0#32] → second ≠ 0#32 →
    exec .div s = .next { s with pc := s.pc + 1, os := rest ++ [0#32] })

/-- R100: the value pushed last is the left operand; two cells are removed and the result stands at the index `second` had.
Where the exact result fits 32 bits it is the result. -/
def Obligations.TopIsTheLeftOperand : Prop :=
  ∀ (s : State) (rest : List Value) (second top : Value), s.os = rest ++ [second, top] →
    (∃ r : Value, exec .add s = .next { s with pc := s.pc + 1, os := rest ++ [r] } ∧
      (-2 ^ 31 ≤ top.toInt + second.toInt → top.toInt + second.toInt < 2 ^ 31 → r.toInt = top.toInt + second.toInt)) ∧
    (∃ r : Value, exec .sub s = .next { s with pc := s.pc + 1, os := rest ++ [r] } ∧
      (-2 ^ 31 ≤ top.toInt - second.toInt → top.toInt - second.toInt < 2 ^ 31 → r.toInt = top.toInt - second.toInt)) ∧
    (∃ r : Value, exec .mul s = .next { s with pc := s.pc + 1, os := rest ++ [r] } ∧
      (-2 ^ 31 ≤ top.toInt * second.toInt → top.toInt * second.toInt < 2 ^ 31 → r.toInt = top.toInt * second.toInt)) ∧
    (second ≠ 0#32 → ∃ r : Value, exec .div s = .next { s with pc := s.pc + 1, os := rest ++ [r] } ∧
      (Int.tdiv top.toInt second.toInt < 2 ^ 31 → r.toInt = Int.tdiv top.toInt second.toInt))

/-- R107 (D6; notes/assumptions/10.md): the identities that hold for all values. Commutativity: the order of the two cells does
not matter. Associativity: two ADDs (two MULs) over the three cells `x, y, z` give `(z + y) + x`, and combining `x` and `y`
first and `z`, pushed after, with their result gives the same state. -/
def Obligations.ArithmeticIdentities : Prop :=
  ∀ (s : State) (rest : List Value) (x y : Value), s.cfg.ovf = .wrap →
    exec .add { s with os := rest ++ [x, y] } = exec .add { s with os := rest ++ [y, x] } ∧
    exec .mul { s with os := rest ++ [x, y] } = exec .mul { s with os := rest ++ [y, x] } ∧
    exec .sub { s with os := rest ++ [x, y] } = exec .add { s with os := rest ++ [-x, y] } ∧
    exec .mul { s with os := rest ++ [0#32, x] } = .next { s with pc := s.pc + 1, os := rest ++ [0#32] } ∧
    exec .add { s with os := rest ++ [0#32, x] } = .next { s with pc := s.pc + 1, os := rest ++ [x] } ∧
    exec .sub { s with os := rest ++ [x, x] } = .next { s with pc := s.pc + 1, os := rest ++ [0#32] } ∧
    (∀ z : Value, ∃ t u v,
      exec .add { s with os := rest ++ [x, y, z] } = .next t ∧ exec .add t = .next v ∧
      exec .add { s with os := rest ++ [x, y] } = .next u ∧ exec .add { u with os := u.os ++ [z] } = .next v) ∧
    ∀ z : Value, ∃ t u v,
      exec .mul { s with os := rest ++ [x, y, z] } = .next t ∧ exec .mul t = .next v ∧
      exec .mul { s with os := rest ++ [x, y] } = .next u ∧ exec .mul { u with os := u.os ++ [z] } = .next v

/-- R108 (D7; notes/assumptions/10.md): the magnitude and the sign of a quotient, and the one quotient that does not fit. -/
def Obligations.QuotientMagnitudeAndSign : Prop :=
  ∀ (s : State) (rest : List Value) (second top : Value), s.cfg.ovf = .wrap → s.os = rest ++ [second, top] →
    second ≠ 0#32 →
    ∃ r : Value, exec .div s = .next { s with pc := s.pc + 1, os := rest ++ [r] } ∧
      (top.toInt = -2 ^ 31 ∧ second.toInt = -1 → r.toInt = -2 ^ 31) ∧
      (¬ (top.toInt = -2 ^ 31 ∧ second.toInt = -1) →
        r.toInt.natAbs = top.toInt.natAbs / second.toInt.natAbs ∧
        (r.toInt < 0 ↔ (top.toInt < 0 ↔ 0 < second.toInt) ∧ top.toInt.natAbs / second.toInt.natAbs ≠ 0))

/-- R106 (D5; notes/assumptions/9.md): PRINT pops one value and emits it with `a + 1`; nothing below it changes. -/
def Obligations.PrintPopsAndEmits : Prop :=
  ∀ (s : State) (rest : List Value) (v : Value), s.os = rest ++ [v] →
    exec .print s = .next { s with pc := s.pc + 1, os := rest, out := s.out ++ [{ pc := s.pc + 1, value := v }] }

/-! ### The call and frame manager (spec/42_call_frame.md) -/

/-- R120 (D11 for the capacity; notes/assumptions/14.md): CALL pushes the return address and the caller's `fp`, sets
`fp = len(os)` and `pc = target`; a full call stack of a finite build faults at `a + 2`. -/
def Obligations.CallSavesAndEnters : Prop :=
  (∀ (s : State) (target : Nat), (∀ n, s.cfg.csCap = some n → s.cs.length + 2 ≤ n) →
    exec (.call target) s =
      .next { s with cs := s.cs ++ [s.pc + 2, s.fp], fp := s.os.length, pc := target }) ∧
  ∀ (s : State) (target n : Nat), s.cfg.csCap = some n → n < s.cs.length + 2 →
    exec (.call target) s = .next (s.asFaulted .stackOverflow (s.pc + 2))

/-- R121 (D23; notes/assumptions/20.md): RETURN restores `fp` from the top entry and `pc` from the one below it; with fewer
than two entries it faults and consumes nothing. -/
def Obligations.ReturnRestoresTheCaller : Prop :=
  (∀ (s : State) (rest : List Nat) (returnPc savedFp : Nat), s.cs = rest ++ [returnPc, savedFp] →
    exec .ret s = .next { s with cs := rest, fp := savedFp, pc := returnPc }) ∧
  ∀ s : State, s.cs.length < 2 → exec .ret s = .next (s.asFaulted .stackUnderflow (s.pc + 1))

/-- R125, from R23: a step between two states whose call stacks hold at least `n` entries keeps the lowest `n`. What the pairing
property rests on, said of one step. -/
def Obligations.StepKeepsTheLowestCallStackEntries : Prop :=
  ∀ (s t : State) (n : Nat), step s = .next t → n ≤ s.cs.length → n ≤ t.cs.length → t.cs.take n = s.cs.take n

/-- R125: after the RETURN that matches a CALL, however the calls between them nest, `fp` and the call stack are the caller's
and `pc` is the address after the CALL's operand. The states between have at least the entries the CALL left. -/
def Obligations.MatchingReturnRestoresTheCaller : Prop :=
  ∀ (s t u : State) (target : Nat), s.status = .running → fetch s = .instr (.call target) →
    step s = .next t → t.status = .running → StepsAbove t.cs.length t u → u.cs.length = t.cs.length →
    u.status = .running → fetch u = .instr .ret →
    ∃ v, step u = .next v ∧ v.status = .running ∧ v.fp = s.fp ∧ v.pc = s.pc + 2 ∧ v.cs = s.cs ∧ v.os = u.os

/-! ### The control-flow unit (spec/43_control_flow.md, spec/40_dispatch.md R89) -/

/-- R130: JUMP's operand byte is the target; JUMP sets `pc` and changes nothing else; what a target outside the program does
belongs to the next step; a missing operand byte faults. -/
def Obligations.JumpSetsThePc : Prop :=
  (∀ (s : State) (target : Nat), exec (.jump target) s = .next { s with pc := target }) ∧
  (∀ (s : State) (b : Byte), s.status = .running → s.prog.read? s.pc = some 0x12#8 →
    s.prog.read? (s.pc + 1) = some b → step s = exec (.jump b.toNat) s) ∧
  (∀ (s : State) (target : Nat), s.status = .running → fetch s = .instr (.jump target) →
    ∃ t, step s = .next t ∧ t = { s with pc := target } ∧
      (target = s.prog.len → step t = .next { t with status := .halted }) ∧
      (s.prog.len < target → step t = .next (t.asFaulted .programCounterOutOfRange target))) ∧
  (∀ s : State, s.status = .running → s.prog.read? s.pc = some 0x12#8 → s.pc + 1 = s.prog.len →
    step s = .next (s.asFaulted .programCounterOutOfRange (s.pc + 1)))

/-- R131 (D24; notes/assumptions/16.md): JUMP_IF pops the condition on both paths and jumps exactly when it is nonzero. -/
def Obligations.JumpIfPopsAndTests : Prop :=
  ∀ (s : State) (target : Nat) (rest : List Value) (c : Value), s.os = rest ++ [c] →
    exec (.jumpIf target) s = .next { s with os := rest, pc := if c.toInt = 0 then s.pc + 2 else target }

/-- R134 (D6 for a difference that overflows; notes/assumptions/10.md): after a SUB, JUMP_IF jumps exactly when the two values
differ: for all values where overflow wraps, and under any overflow rule where the difference fits 32 bits. -/
def Obligations.SubThenJumpIfTestsInequality : Prop :=
  ∀ (s : State) (rest : List Value) (second top : Value) (target : Nat), s.os = rest ++ [second, top] →
    s.cfg.ovf = .wrap ∨ (-2 ^ 31 ≤ top.toInt - second.toInt ∧ top.toInt - second.toInt < 2 ^ 31) →
    ∃ t u, exec .sub s = .next t ∧ exec (.jumpIf target) t = .next u ∧ u.os = rest ∧
      u.pc = if top = second then s.pc + 3 else target

/-- R89 (D19; notes/assumptions/17.md): HALT sets `status` and leaves `pc = a + 1`; nothing else changes, whatever the stacks
hold. -/
def Obligations.HaltStops : Prop :=
  ∀ s : State, exec .halt s = .next { s with pc := s.pc + 1, status := .halted }

/-! ### The local and parameter accessor (spec/44_local_param.md) -/

/-- R141 (D8; notes/assumptions/11.md): STORE_LOCAL pops the value and overwrites the cell at `fp + i`, and no other cell;
an address not below the length after the pop faults at `a + 2`. -/
def Obligations.StoreLocalOverwritesOneCell : Prop :=
  ∀ (s : State) (idx : Nat) (rest : List Value) (v : Value), s.os = rest ++ [v] →
    (s.fp + idx < rest.length →
      ∃ xs, exec (.storeLocal idx) s = .next { s with pc := s.pc + 2, os := xs } ∧ xs.length = rest.length ∧
        xs[s.fp + idx]? = some v ∧ ∀ k, k ≠ s.fp + idx → xs[k]? = rest[k]?) ∧
    (rest.length ≤ s.fp + idx → exec (.storeLocal idx) s = .next (s.asFaulted .outOfBoundsAccess (s.pc + 2)))

/-- R143 (D8; notes/assumptions/11.md): STORE_PARAM pops the value and overwrites the cell at `fp - (i + 1)`, and no other
cell; an address that is negative or not below the length after the pop faults at `a + 2`. -/
def Obligations.StoreParamOverwritesOneCell : Prop :=
  ∀ (s : State) (idx : Nat) (rest : List Value) (v : Value), s.os = rest ++ [v] →
    (∀ k, k + (idx + 1) = s.fp → k < rest.length →
      ∃ xs, exec (.storeParam idx) s = .next { s with pc := s.pc + 2, os := xs } ∧ xs.length = rest.length ∧
        xs[k]? = some v ∧ ∀ k', k' ≠ k → xs[k']? = rest[k']?) ∧
    (s.fp < idx + 1 ∨ rest.length + (idx + 1) ≤ s.fp →
      exec (.storeParam idx) s = .next (s.asFaulted .outOfBoundsAccess (s.pc + 2)))

/-- R142: LOAD_LOCAL pushes a copy of the cell at `fp + i`; out of bounds comes before a full stack; a missing operand byte
faults; it never underflows. -/
def Obligations.LoadLocalPushesTheCell : Prop :=
  (∀ (s : State) (idx : Nat) (v : Value), s.os[s.fp + idx]? = some v → s.cfg.osCap ≠ some s.os.length →
    exec (.loadLocal idx) s = .next { s with pc := s.pc + 2, os := s.os ++ [v] }) ∧
  (∀ (s : State) (idx : Nat), s.os.length ≤ s.fp + idx →
    exec (.loadLocal idx) s = .next (s.asFaulted .outOfBoundsAccess (s.pc + 2))) ∧
  (∀ (s : State) (idx : Nat), s.fp + idx < s.os.length → s.cfg.osCap = some s.os.length →
    exec (.loadLocal idx) s = .next (s.asFaulted .stackOverflow (s.pc + 2))) ∧
  (∀ (s : State) (b : Byte), s.status = .running → s.prog.read? s.pc = some 0x21#8 →
    s.prog.read? (s.pc + 1) = some b → step s = exec (.loadLocal b.toNat) s) ∧
  (∀ s : State, s.status = .running → s.prog.read? s.pc = some 0x21#8 → s.pc + 1 = s.prog.len →
    step s = .next (s.asFaulted .programCounterOutOfRange (s.pc + 1)))

/-- R144: LOAD_PARAM pushes a copy of the cell at `fp - (i + 1)`; an address that is negative or not below `len(os)` faults
before a full stack does; a missing operand byte faults; it never underflows. -/
def Obligations.LoadParamPushesTheCell : Prop :=
  (∀ (s : State) (idx k : Nat) (v : Value), k + (idx + 1) = s.fp → s.os[k]? = some v →
    s.cfg.osCap ≠ some s.os.length → exec (.loadParam idx) s = .next { s with pc := s.pc + 2, os := s.os ++ [v] }) ∧
  (∀ (s : State) (idx : Nat), s.fp < idx + 1 ∨ s.os.length + (idx + 1) ≤ s.fp →
    exec (.loadParam idx) s = .next (s.asFaulted .outOfBoundsAccess (s.pc + 2))) ∧
  (∀ (s : State) (idx k : Nat), k + (idx + 1) = s.fp → k < s.os.length → s.cfg.osCap = some s.os.length →
    exec (.loadParam idx) s = .next (s.asFaulted .stackOverflow (s.pc + 2))) ∧
  (∀ (s : State) (b : Byte), s.status = .running → s.prog.read? s.pc = some 0x23#8 →
    s.prog.read? (s.pc + 1) = some b → step s = exec (.loadParam b.toNat) s) ∧
  (∀ s : State, s.status = .running → s.prog.read? s.pc = some 0x23#8 → s.pc + 1 = s.prog.len →
    step s = .next (s.asFaulted .programCounterOutOfRange (s.pc + 1)))

/-- R145: LOAD_LOCAL right after a STORE_LOCAL at the same index and frame pushes the stored value, and the stack is as before
the store but for the slot. -/
def Obligations.StoreThenLoadLocalReturnsTheValue : Prop :=
  ∀ (s t : State) (idx : Nat) (rest : List Value) (v : Value), s.status = .running → s.os = rest ++ [v] →
    (∀ n, s.cfg.osCap = some n → s.os.length ≤ n) → exec (.storeLocal idx) s = .next t → t.status = .running →
    ∃ u, exec (.loadLocal idx) t = .next u ∧ u.status = .running ∧ u.os.getLast? = some v ∧
      u.os = s.os.set (s.fp + idx) v

/-- R145, for parameters. -/
def Obligations.StoreThenLoadParamReturnsTheValue : Prop :=
  ∀ (s t : State) (idx : Nat) (rest : List Value) (v : Value), s.status = .running → s.os = rest ++ [v] →
    (∀ n, s.cfg.osCap = some n → s.os.length ≤ n) → exec (.storeParam idx) s = .next t → t.status = .running →
    ∃ (u : State) (k : Nat), k + (idx + 1) = s.fp ∧ exec (.loadParam idx) t = .next u ∧ u.status = .running ∧
      u.os.getLast? = some v ∧ u.os = s.os.set k v

/-- R146 (D8 for the stores; notes/assumptions/11.md): with `fp` above the stack top every local index faults. A parameter index
faults below `fp - n` and from `fp` up, and between the two reaches an existing cell, with `n = len(os)` for a load and the
length after the pop for a store. A store with no value to pop underflows first (`UnderflowComesFirstAndReportsItsAddress`). -/
def Obligations.FramePointerAboveTheStackTop : Prop :=
  ∀ (s : State) (idx : Nat), s.os.length < s.fp →
    exec (.loadLocal idx) s = .next (s.asFaulted .outOfBoundsAccess (s.pc + 2)) ∧
    (s.os ≠ [] → exec (.storeLocal idx) s = .next (s.asFaulted .outOfBoundsAccess (s.pc + 2))) ∧
    (idx < s.fp - s.os.length → exec (.loadParam idx) s = .next (s.asFaulted .outOfBoundsAccess (s.pc + 2))) ∧
    (s.fp - s.os.length ≤ idx → idx < s.fp → s.cfg.osCap ≠ some s.os.length →
      ∃ v, s.os[s.fp - (idx + 1)]? = some v ∧
        exec (.loadParam idx) s = .next { s with pc := s.pc + 2, os := s.os ++ [v] }) ∧
    (s.fp ≤ idx → exec (.loadParam idx) s = .next (s.asFaulted .outOfBoundsAccess (s.pc + 2))) ∧
    ∀ (rest : List Value) (v : Value), s.os = rest ++ [v] →
      (idx < s.fp - rest.length → exec (.storeParam idx) s = .next (s.asFaulted .outOfBoundsAccess (s.pc + 2))) ∧
      (s.fp - rest.length ≤ idx → idx < s.fp →
        s.fp - (idx + 1) < rest.length ∧
        exec (.storeParam idx) s = .next { s with pc := s.pc + 2, os := rest.set (s.fp - (idx + 1)) v }) ∧
      (s.fp ≤ idx → exec (.storeParam idx) s = .next (s.asFaulted .outOfBoundsAccess (s.pc + 2)))

/-! ### Faults (spec/60_exceptions.md) -/

/-- R163: the required counts, for every instruction: one with too few cells or entries raises `StackUnderflow`, changing no
stack, and one with enough never raises it. -/
def Obligations.UnderflowExactlyWhenTooFew : Prop :=
  ∀ (i : Instr) (s : State), s.status = .running →
    ((s.os.length < osNeeded i ∨ s.cs.length < csNeeded i) ↔ ∃ p, exec i s = .next (s.asFaulted .stackUnderflow p))

/-- R163, R168, R169 (D2, D8, D17, D18, D23; notes/assumptions/7.md, 11.md, 16.md, 20.md): the whole state an underflow leaves, instruction
by instruction. It comes before every other check of its instruction but the operand fetch of a store, so neither a slot
address nor a divisor matters. -/
def Obligations.UnderflowComesFirstAndReportsItsAddress : Prop :=
  ∀ s : State,
    (s.os.length < 2 →
      exec .add s = .next (s.asFaulted .stackUnderflow (s.pc + 1)) ∧
      exec .sub s = .next (s.asFaulted .stackUnderflow (s.pc + 1)) ∧
      exec .mul s = .next (s.asFaulted .stackUnderflow (s.pc + 1)) ∧
      exec .div s = .next (s.asFaulted .stackUnderflow (s.pc + 1))) ∧
    (s.os = [] →
      exec .print s = .next (s.asFaulted .stackUnderflow (s.pc + 1)) ∧
      (∀ target, exec (.jumpIf target) s = .next (s.asFaulted .stackUnderflow (s.pc + 1))) ∧
      (∀ idx, exec (.storeLocal idx) s = .next (s.asFaulted .stackUnderflow (s.pc + 2))) ∧
      ∀ idx, exec (.storeParam idx) s = .next (s.asFaulted .stackUnderflow (s.pc + 2))) ∧
    (s.cs.length < 2 → exec .ret s = .next (s.asFaulted .stackUnderflow (s.pc + 1)))

/-- R164 (D8 for the stores; notes/assumptions/11.md): `OutOfBoundsAccess` is raised exactly when the address is negative or
not below `n`, with `n = len(os)` for loads and `len(os) - 1` for stores. -/
def Obligations.OutOfBoundsExactlyWhenTheAddressIsInvalid : Prop :=
  ∀ (s : State) (idx : Nat), s.status = .running →
    ((∃ p, exec (.loadLocal idx) s = .next (s.asFaulted .outOfBoundsAccess p)) ↔ s.os.length ≤ s.fp + idx) ∧
    ((∃ p, exec (.loadParam idx) s = .next (s.asFaulted .outOfBoundsAccess p)) ↔
      s.fp < idx + 1 ∨ s.os.length ≤ s.fp - (idx + 1)) ∧
    (s.os ≠ [] →
      ((∃ p, exec (.storeLocal idx) s = .next (s.asFaulted .outOfBoundsAccess p)) ↔ s.os.length - 1 ≤ s.fp + idx) ∧
      ((∃ p, exec (.storeParam idx) s = .next (s.asFaulted .outOfBoundsAccess p)) ↔
        s.fp < idx + 1 ∨ s.os.length - 1 ≤ s.fp - (idx + 1)))

/-- R168 (D2; notes/assumptions/7.md): which kinds an instruction raises, and the `fault_pc` of each. -/
def Obligations.ReportedProgramCounter : Prop :=
  ∀ (i : Instr) (s : State) (k : FaultKind) (p : Nat), s.status = .running → exec i s = .next (s.asFaulted k p) →
    (k = .stackUnderflow ∧ ((∃ idx, i = .storeLocal idx) ∨ ∃ idx, i = .storeParam idx) ∧ p = s.pc + 2) ∨
    (k = .stackUnderflow ∧ (∀ idx, i ≠ .storeLocal idx) ∧ (∀ idx, i ≠ .storeParam idx) ∧ p = s.pc + 1) ∨
    (k = .divisionByZero ∧ i = .div ∧ p = s.pc + 1) ∨
    (k = .outOfBoundsAccess ∧ p = s.pc + 2) ∨
    (k = .stackOverflow ∧ p = s.pc + 2)

/-- R161, R90 (D1; notes/assumptions/6.md): an instruction that faults changes nothing but `pc`, `status` and the fault
report, and reports an address after its opcode. -/
def Obligations.FaultsArePrecise : Prop :=
  ∀ (i : Instr) (s t : State), s.status = .running → exec i s = .next t → t.status = .faulted →
    t.os = s.os ∧ t.cs = s.cs ∧ t.fp = s.fp ∧ t.out = s.out ∧ t.prog = s.prog ∧ t.cfg = s.cfg ∧
    t.faultKind ≠ .noFault ∧ t.faultPc = t.pc ∧ s.pc < t.pc ∧ t.pc ≤ s.pc + 2

/-- R27: `fault_kind` and `fault_pc` are written by fault entry alone: an instruction that does not fault leaves them, and
leaves `status` unless it is HALT. -/
def Obligations.OnlyFaultEntryWritesTheReport : Prop :=
  ∀ (i : Instr) (s t : State), exec i s = .next t → t.status ≠ .faulted →
    t.faultKind = s.faultKind ∧ t.faultPc = s.faultPc ∧ (i ≠ .halt → t.status = s.status)

/-- R167 (D11; notes/assumptions/14.md): `StackOverflow` is raised only by a push that would exceed a finite capacity. -/
def Obligations.StackOverflowOnlyWhenFull : Prop :=
  ∀ (i : Instr) (s : State) (p : Nat), s.status = .running → exec i s = .next (s.asFaulted .stackOverflow p) →
    (s.cfg.osCap = some s.os.length ∧
      ((∃ imm, i = .push imm) ∨ (∃ idx, i = .loadLocal idx) ∨ (∃ idx, i = .loadParam idx))) ∨
    (∃ n target, s.cfg.csCap = some n ∧ n < s.cs.length + 2 ∧ i = .call target)

/-- R167 (D11; notes/assumptions/14.md): with both stacks unbounded no engine ever reports `StackOverflow`. -/
def Obligations.UnboundedStacksNeverOverflow : Prop :=
  ∀ (cfg : Config) (prog : Memory) (t : State), cfg.osCap = none → cfg.csCap = none →
    StepsAbove 0 (State.construct cfg prog) t → t.faultKind ≠ .stackOverflow

/-! ### Frames: what an instruction leaves unchanged -/

/-- R23, R24: only CALL and RETURN change the call stack and the frame pointer. -/
def Obligations.OnlyCallAndReturnTouchTheFrame : Prop :=
  ∀ (i : Instr) (s t : State), exec i s = .next t → (∀ target, i ≠ .call target) → i ≠ .ret →
    t.cs = s.cs ∧ t.fp = s.fp

/-- R31, R106 (D5; notes/assumptions/9.md): only PRINT emits, one event, the value on top. -/
def Obligations.OnlyPrintEmits : Prop :=
  ∀ (i : Instr) (s t : State), exec i s = .next t →
    t.out = s.out ∨ (i = .print ∧ ∃ v, s.os.getLast? = some v ∧ t.out = s.out ++ [{ pc := s.pc + 1, value := v }])

/-- R41, R53: no instruction writes program memory, and no step does: every byte reads as before. -/
def Obligations.ProgramMemoryIsNeverWritten : Prop :=
  (∀ (i : Instr) (s t : State), exec i s = .next t → t.prog = s.prog ∧ t.cfg = s.cfg) ∧
  ∀ s t : State, step s = .next t → t.cfg = s.cfg ∧ t.prog.len = s.prog.len ∧ ∀ a, t.prog.read? a = s.prog.read? a

/-- R22: below the cells it pops an instruction changes no cell, but the one a store overwrites. -/
def Obligations.CellsBelowTheOperandsAreKept : Prop :=
  ∀ (i : Instr) (s t : State) (k : Nat), exec i s = .next t → k + osNeeded i < s.os.length →
    (∀ idx, i = .storeLocal idx → k ≠ s.fp + idx) → (∀ idx, i = .storeParam idx → k + (idx + 1) ≠ s.fp) →
    t.os[k]? = s.os[k]?

/-! ### Whole runs -/

/-- Every step keeps the invariant: R25 (the bound of `pc`), R27 (the report), R34 (whole pairs on the call stack), R6 (the
capacities), R106 (the addresses in events), and the canonical form of program memory. What its clauses rest on beside the
source's rules: `progWf` on the model's choice of notes/assumptions/2.md (DESIGN CHOICE: the canonical form); `noReport` on D12
(15.md); `report` and the bound of a faulted `pc` on D2 (7.md); `frames` on D4 (8.md: a truncated CALL saves nothing); `events`
on D5 (9.md: the event carries `a + 1`); `osBound`, `csBound` and the bound of frame pointers on D11 (14.md: the capacities). -/
def Obligations.StepKeepsTheInvariant : Prop :=
  ∀ s t : State, Inv s → step s = .next t → Inv t

/-- R6, R25 (D10; notes/assumptions/13.md): in a build whose `UW` is admissible, no number the engine holds or forms needs more
than `UW` bits. -/
def Obligations.NoNumberOutgrowsItsWidth : Prop :=
  ∀ (s : State) (w : Nat), Inv s → s.cfg.uw = some w → s.cfg.uwAdmissible s.prog.len = true →
    s.pc < 2 ^ w ∧ s.fp < 2 ^ w ∧ s.faultPc < 2 ^ w ∧ (∀ e ∈ s.cs, e < 2 ^ w) ∧
    ∀ idx, idx ≤ 255 → s.fp + idx < 2 ^ w

/-- R31, R50: output events are only appended, in execution order. -/
def Obligations.OutputOnlyGrows : Prop :=
  ∀ (fuel : Nat) (s : State), s.out <+: (run fuel s).out

/-- R80, R81 (D21; notes/assumptions/18.md): once a run has ended, more fuel changes nothing; while it has not, one more unit
of fuel is one more step. -/
def Obligations.RunIsIteratedStep : Prop :=
  (∀ (fuel more : Nat) (s : State), (run fuel s).status ≠ .running → run (fuel + more) s = run fuel s) ∧
  ∀ (fuel : Nat) (s : State), (run fuel s).status = .running → step (run fuel s) = .next (run (fuel + 1) s)
end

