-- ==== Sys2Proof/Laws/Decode.lean ====
section
/-! SUPPORT. The decoder's parts: what each opcode byte is, and what an operand byte reads as. -/

namespace Sys2Proof

/-- The opcode byte of an opcode (R64). -/
def Opcode.byte : Opcode → Byte
  | .push => 0x01#8
  | .add => 0x02#8
  | .sub => 0x03#8
  | .mul => 0x04#8
  | .div => 0x05#8
  | .print => 0x06#8
  | .call => 0x10#8
  | .ret => 0x11#8
  | .jump => 0x12#8
  | .jumpIf => 0x13#8
  | .storeLocal => 0x20#8
  | .loadLocal => 0x21#8
  | .storeParam => 0x22#8
  | .loadParam => 0x23#8
  | .halt => 0xFF#8

@[simp] theorem opcodeOfByte_byte (op : Opcode) : opcodeOfByte op.byte = some op := by cases op <;> rfl

/-- No other byte is an opcode: the map and its inverse agree on all 256 bytes. -/
theorem byte_of_opcodeOfByte {b : Byte} {op : Opcode} (h : opcodeOfByte b = some op) : b = op.byte := by
  have key : ∀ b : Byte, ∀ op ∈ opcodeOfByte b, b = op.byte := by decide
  exact key b op h

/-- The decoder rejects a first byte by name exactly when the map has no row for it. -/
theorem decode_eq_unknownOpcode {b : Byte} {rest : List Byte} :
    decode (b :: rest) = .unknownOpcode b ↔ opcodeOfByte b = none := by
  rw [decode]
  split
  · simp [*]
  · next op h =>
    simp only [h, reduceCtorEq, iff_false]
    cases op <;> cases rest <;> simp [decodeOperand, takeOperand]

/-- `sext_32` of a byte is its two's complement number (R7, R10). -/
theorem signedOfByte_eq (b : Byte) : signedOfByte b = b.toInt := by
  have key : ∀ b : Byte, signedOfByte b = b.toInt := by decide
  exact key b

theorem signedOfByte_range (b : Byte) : -128 ≤ signedOfByte b ∧ signedOfByte b ≤ 127 := by
  have key : ∀ b : Byte, -128 ≤ signedOfByte b ∧ signedOfByte b ≤ 127 := by decide
  exact key b

theorem unsignedOfByte_le (b : Byte) : unsignedOfByte b ≤ 255 := by
  have := b.isLt
  unfold unsignedOfByte; omega

theorem signedOfByte_byteOfInt {imm : Int} (h : imm8Ok imm = true) : signedOfByte (byteOfInt imm) = imm := by
  simp only [imm8Ok, decide_eq_true_eq] at h
  rw [signedOfByte_eq, byteOfInt, BitVec.toInt_ofInt, Int.bmod_eq_of_le] <;> omega

theorem unsignedOfByte_byteOfNat {n : Nat} (h : n ≤ 255) : unsignedOfByte (byteOfNat n) = n := by
  simp only [unsignedOfByte, byteOfNat, BitVec.toNat_ofNat]
  omega

theorem byteOfInt_signedOfByte (b : Byte) : byteOfInt (signedOfByte b) = b := by
  rw [signedOfByte_eq, byteOfInt, BitVec.ofInt_toInt]

theorem byteOfNat_unsignedOfByte (b : Byte) : byteOfNat (unsignedOfByte b) = b := by
  rw [byteOfNat, unsignedOfByte, BitVec.ofNat_toNat, BitVec.setWidth_eq]

end Sys2Proof
end

