-- ==== Sys2Proof/Laws/Memory.lean ====
section
/-! SUPPORT. Program memory: the canonical form is kept by every operation that writes it, a read after a write, and the
fact that it is exactly a sequence of bytes (spec/10_state.md R21): `ofBytes` reads as its list, and two programs in
canonical form that read alike are equal. -/

namespace Sys2Proof.Machine

/-- Lowering the lower bound keeps the form. -/
theorem cellsWf_mono {cells : List Host.Cell} {lo lo' len len' : Nat} (hl : lo' ≤ lo) (hn : len ≤ len')
    (h : cellsWf lo len cells = true) : cellsWf lo' len' cells = true := by
  induction cells generalizing lo lo' with
  | nil => rfl
  | cons c rest ih =>
    obtain ⟨a, b⟩ := c
    simp only [cellsWf, Bool.and_eq_true, decide_eq_true_eq] at h ⊢
    exact ⟨⟨⟨by omega, by omega⟩, h.1.2⟩, ih (Nat.le_refl _) h.2⟩

/-- No cell lists an address below the lower bound. -/
theorem lookupCell_below {cells : List Host.Cell} {lo len a : Nat} (h : cellsWf lo len cells = true) (ha : a < lo) :
    lookupCell cells a = Memory.unlisted := by
  induction cells generalizing lo with
  | nil => rfl
  | cons c rest ih =>
    obtain ⟨k, b⟩ := c
    simp only [cellsWf, Bool.and_eq_true, decide_eq_true_eq] at h
    rw [lookupCell, if_neg (by omega)]
    exact ih h.2 (by omega)

/-- `putCell` keeps the canonical form. -/
theorem cellsWf_putCell {cells : List Host.Cell} {lo len a : Nat} {b : Byte} (h : cellsWf lo len cells = true)
    (hlo : lo ≤ a) (ha : a < len) : cellsWf lo len (putCell cells a b) = true := by
  induction cells generalizing lo with
  | nil =>
    by_cases hb : b = Memory.unlisted <;> simp [putCell, cellsWf, hb, hlo, ha]
  | cons c rest ih =>
    obtain ⟨k, d⟩ := c
    simp only [cellsWf, Bool.and_eq_true, decide_eq_true_eq] at h
    obtain ⟨⟨⟨h1, h2⟩, h3⟩, h4⟩ := h
    simp only [putCell]
    split_ifs with hak hb hak' hb
    · simp [cellsWf, h1, h2, h3, h4]
    · simp [cellsWf, h2, h3, h4, hb, hlo, ha]; omega
    · exact cellsWf_mono (by omega) (Nat.le_refl _) h4
    · subst hak'; simp [cellsWf, hlo, ha, hb, h4]
    · simp [cellsWf, h1, h2, h3]; exact ih h4 (by omega)

/-- A lookup after `putCell` finds the new byte at its address and the old byte everywhere else. -/
theorem lookupCell_putCell {cells : List Host.Cell} {lo len : Nat} (h : cellsWf lo len cells = true) (a a' : Nat)
    (b : Byte) : lookupCell (putCell cells a b) a' = if a' = a then b else lookupCell cells a' := by
  induction cells generalizing lo with
  | nil =>
    rcases eq_or_ne a' a with rfl | ha
    · by_cases hb : b = Memory.unlisted <;> simp [putCell, lookupCell, hb]
    · by_cases hb : b = Memory.unlisted <;> simp [putCell, lookupCell, hb, ha, ha.symm]
  | cons c rest ih =>
    obtain ⟨k, d⟩ := c
    simp only [cellsWf, Bool.and_eq_true, decide_eq_true_eq] at h
    obtain ⟨⟨⟨h1, h2⟩, h3⟩, h4⟩ := h
    simp only [putCell]
    split_ifs with hak hb ha ha hak' hb ha ha ha
    · subst ha
      rw [lookupCell, if_neg (by omega), lookupCell_below h4 (by omega), hb]
    · rfl
    · simp [lookupCell, ha]
    · rw [lookupCell, if_neg (by omega)]
    · subst hak' ha
      rw [lookupCell_below h4 (by omega), hb]
    · subst hak'
      rw [lookupCell, if_neg (by omega)]
    · simp [lookupCell, ha]
    · subst hak'
      rw [lookupCell, if_neg (by omega), lookupCell, if_neg (by omega)]
    · subst ha
      rw [lookupCell, if_neg (by omega), ih h4, if_pos rfl]
    · simp [lookupCell, ih h4, ha]

/-! ### `Memory.load` and `Memory.loadBytes` -/

theorem Memory.wf_empty : Memory.empty.wf = true := rfl

theorem Memory.wf_load {m : Memory} (h : m.wf = true) (a : Nat) (b : Byte) : (m.load a b).wf = true :=
  cellsWf_putCell (cellsWf_mono (Nat.le_refl _) (Nat.le_max_left _ _) h) (Nat.zero_le _) (by show a < max m.len (a + 1); omega)

theorem Memory.wf_loadBytes {m : Memory} (h : m.wf = true) (a : Nat) (bs : List Byte) : (m.loadBytes a bs).wf = true := by
  induction bs generalizing m a with
  | nil => exact h
  | cons b bs ih => exact ih (Memory.wf_load h a b) (a + 1)

theorem Memory.wf_ofBytes (bs : List Byte) : (Memory.ofBytes bs).wf = true := Memory.wf_loadBytes Memory.wf_empty 0 bs

theorem Memory.load_len (m : Memory) (a : Nat) (b : Byte) : (m.load a b).len = max m.len (a + 1) := rfl

/-- Read after write, the same address. -/
theorem Memory.read?_load_self {m : Memory} (h : m.wf = true) (a : Nat) (b : Byte) : (m.load a b).read? a = some b := by
  simp [Memory.read?, Memory.load, lookupCell_putCell h]

/-- Read after write, another address of the program. -/
theorem Memory.read?_load_other {m : Memory} (h : m.wf = true) {a a' : Nat} (b : Byte) (hne : a' ≠ a)
    (hlt : a' < m.len) : (m.load a b).read? a' = m.read? a' := by
  have : a' < max m.len (a + 1) := by omega
  simp [Memory.read?, Memory.load, lookupCell_putCell h, hne, hlt, this]

theorem Memory.loadBytes_len (m : Memory) (a : Nat) (bs : List Byte) :
    (m.loadBytes a bs).len = if bs = [] then m.len else max m.len (a + bs.length) := by
  induction bs generalizing m a with
  | nil => rfl
  | cons b bs ih =>
    rw [Memory.loadBytes, ih, Memory.load_len]
    by_cases hb : bs = []
    · simp [hb]
    · simp only [hb, if_false, List.length_cons, reduceCtorEq]; omega

/-- The bytes loaded are read back; the program's other bytes are as before. -/
theorem Memory.read?_loadBytes {m : Memory} (h : m.wf = true) (a : Nat) (bs : List Byte) (a' : Nat)
    (hlt : a' < m.len ∨ a ≤ a' ∧ a' < a + bs.length) :
    (m.loadBytes a bs).read? a' = if a ≤ a' ∧ a' < a + bs.length then bs[a' - a]? else m.read? a' := by
  induction bs generalizing m a with
  | nil => simp [Memory.loadBytes]
  | cons b bs ih =>
    simp only [List.length_cons] at hlt ⊢
    rw [Memory.loadBytes, ih (Memory.wf_load h a b) (a + 1) (by rw [Memory.load_len]; omega)]
    by_cases ha : a' = a
    · subst ha
      simp [Memory.read?_load_self h]
    · by_cases hin : a + 1 ≤ a' ∧ a' < a + 1 + bs.length
      · rw [if_pos hin, if_pos (by omega), show a' - a = (a' - (a + 1)) + 1 by omega, List.getElem?_cons_succ]
      · rw [if_neg hin, if_neg (by omega), Memory.read?_load_other h b ha (by omega)]

/-- A program given as a sequence of bytes has its length. -/
theorem Memory.ofBytes_len (bs : List Byte) : (Memory.ofBytes bs).len = bs.length := by
  rw [Memory.ofBytes, Memory.loadBytes_len]
  cases bs <;> simp [Memory.empty]

/-- A program given as a sequence of bytes reads as that sequence (R21). -/
theorem Memory.read?_ofBytes (bs : List Byte) (a : Nat) : (Memory.ofBytes bs).read? a = bs[a]? := by
  by_cases ha : a < bs.length
  · rw [Memory.ofBytes, Memory.read?_loadBytes Memory.wf_empty 0 bs a (.inr (by omega)), if_pos (by omega)]; rfl
  · rw [Memory.read?, Memory.ofBytes_len, if_neg ha, List.getElem?_eq_none (by omega)]

/-! ### Equal programs are equal data -/

/-- Canonical lists that look up alike are equal. -/
theorem cells_ext {xs ys : List Host.Cell} {lo len : Nat} (hx : cellsWf lo len xs = true) (hy : cellsWf lo len ys = true)
    (h : ∀ a, lookupCell xs a = lookupCell ys a) : xs = ys := by
  induction xs generalizing lo ys with
  | nil =>
    cases ys with
    | nil => rfl
    | cons c rest =>
      obtain ⟨k, b⟩ := c
      simp only [cellsWf, Bool.and_eq_true, decide_eq_true_eq] at hy
      have := h k
      simp only [lookupCell, if_true] at this
      exact absurd this.symm hy.1.2
  | cons c rest ih =>
    obtain ⟨k, b⟩ := c
    have hx' := hx
    simp only [cellsWf, Bool.and_eq_true, decide_eq_true_eq] at hx
    obtain ⟨⟨⟨_, _⟩, hb⟩, hr⟩ := hx
    cases ys with
    | nil =>
      have := h k
      simp only [lookupCell, if_true] at this
      exact absurd this hb
    | cons c' rest' =>
      obtain ⟨k', b'⟩ := c'
      have hy' := hy
      simp only [cellsWf, Bool.and_eq_true, decide_eq_true_eq] at hy
      obtain ⟨⟨⟨_, _⟩, hb'⟩, hr'⟩ := hy
      have hk : k = k' := by
        rcases Nat.lt_trichotomy k k' with hlt | heq | hgt
        · have := h k
          rw [lookupCell, if_pos rfl, lookupCell, if_neg (by omega), lookupCell_below hr' (by omega)] at this
          exact absurd this hb
        · exact heq
        · have := h k'
          rw [lookupCell, if_neg (by omega), lookupCell_below hr (by omega), lookupCell, if_pos rfl] at this
          exact absurd this.symm hb'
      subst hk
      have hbb : b = b' := by simpa [lookupCell] using h k
      subst hbb
      congr 1
      refine ih hr hr' (fun a => ?_)
      by_cases ha : k = a
      · subst ha
        rw [lookupCell_below hr (by omega), lookupCell_below hr' (by omega)]
      · simpa [lookupCell, ha] using h a

/-- Two programs in canonical form of the same length that read alike are the same data. -/
theorem Memory.ext_read {m m' : Memory} (h : m.wf = true) (h' : m'.wf = true) (hlen : m.len = m'.len)
    (hr : ∀ a, m.read? a = m'.read? a) : m = m' := by
  obtain ⟨len, xs⟩ := m
  obtain ⟨len', ys⟩ := m'
  simp only at hlen
  subst hlen
  congr 1
  refine cells_ext h h' (fun a => ?_)
  by_cases ha : a < len
  · simpa [Memory.read?, ha] using hr a
  · have hb : ∀ {zs : List Host.Cell} {lo : Nat}, cellsWf lo len zs = true → lookupCell zs a = Memory.unlisted := by
      intro zs
      induction zs with
      | nil => intro lo _; rfl
      | cons c rest ih =>
        intro lo hz
        obtain ⟨k, b⟩ := c
        simp only [cellsWf, Bool.and_eq_true, decide_eq_true_eq] at hz
        rw [lookupCell, if_neg (by omega)]
        exact ih hz.2
    rw [hb h, hb h']

/-! ### Reads near the program counter -/

theorem Memory.read?_isSome {m : Memory} {a : Nat} : (m.read? a).isSome = true ↔ a < m.len := by
  unfold Memory.read?; split <;> simp_all

theorem Memory.read?_eq_none {m : Memory} {a : Nat} : m.read? a = none ↔ m.len ≤ a := by
  unfold Memory.read?; split <;> simp_all

theorem Memory.read?_lt {m : Memory} {a : Nat} {b : Byte} (h : m.read? a = some b) : a < m.len :=
  Memory.read?_isSome.1 (by simp [h])

/-- The window of a fetch begins with the byte at the program counter. -/
theorem Memory.window_cons {m : Memory} {a : Nat} {b : Byte} (h : m.read? a = some b) :
    m.window a = b :: (m.read? (a + 1)).toList := by
  simp [Memory.window, h]

end Sys2Proof.Machine
end

