-- ==== Sys2Proof/Laws/State.lean ====
section
/-! SUPPORT. One lemma per field per update of State, so that no proof unfolds a record update. -/

namespace Sys2Proof.Machine

variable (s : State)

/-! ### `State.setPc` -/

@[simp] theorem State.setPc_cfg (p : Nat) : (s.setPc p).cfg = s.cfg := rfl
@[simp] theorem State.setPc_prog (p : Nat) : (s.setPc p).prog = s.prog := rfl
@[simp] theorem State.setPc_pc (p : Nat) : (s.setPc p).pc = p := rfl
@[simp] theorem State.setPc_os (p : Nat) : (s.setPc p).os = s.os := rfl
@[simp] theorem State.setPc_cs (p : Nat) : (s.setPc p).cs = s.cs := rfl
@[simp] theorem State.setPc_fp (p : Nat) : (s.setPc p).fp = s.fp := rfl
@[simp] theorem State.setPc_status (p : Nat) : (s.setPc p).status = s.status := rfl
@[simp] theorem State.setPc_faultKind (p : Nat) : (s.setPc p).faultKind = s.faultKind := rfl
@[simp] theorem State.setPc_faultPc (p : Nat) : (s.setPc p).faultPc = s.faultPc := rfl
@[simp] theorem State.setPc_out (p : Nat) : (s.setPc p).out = s.out := rfl

/-! ### `State.setOs` -/

@[simp] theorem State.setOs_cfg (xs : List Value) : (s.setOs xs).cfg = s.cfg := rfl
@[simp] theorem State.setOs_prog (xs : List Value) : (s.setOs xs).prog = s.prog := rfl
@[simp] theorem State.setOs_pc (xs : List Value) : (s.setOs xs).pc = s.pc := rfl
@[simp] theorem State.setOs_os (xs : List Value) : (s.setOs xs).os = xs := rfl
@[simp] theorem State.setOs_cs (xs : List Value) : (s.setOs xs).cs = s.cs := rfl
@[simp] theorem State.setOs_fp (xs : List Value) : (s.setOs xs).fp = s.fp := rfl
@[simp] theorem State.setOs_status (xs : List Value) : (s.setOs xs).status = s.status := rfl
@[simp] theorem State.setOs_faultKind (xs : List Value) : (s.setOs xs).faultKind = s.faultKind := rfl
@[simp] theorem State.setOs_faultPc (xs : List Value) : (s.setOs xs).faultPc = s.faultPc := rfl
@[simp] theorem State.setOs_out (xs : List Value) : (s.setOs xs).out = s.out := rfl

/-! ### `State.setCs` -/

@[simp] theorem State.setCs_cfg (xs : List Nat) : (s.setCs xs).cfg = s.cfg := rfl
@[simp] theorem State.setCs_prog (xs : List Nat) : (s.setCs xs).prog = s.prog := rfl
@[simp] theorem State.setCs_pc (xs : List Nat) : (s.setCs xs).pc = s.pc := rfl
@[simp] theorem State.setCs_os (xs : List Nat) : (s.setCs xs).os = s.os := rfl
@[simp] theorem State.setCs_cs (xs : List Nat) : (s.setCs xs).cs = xs := rfl
@[simp] theorem State.setCs_fp (xs : List Nat) : (s.setCs xs).fp = s.fp := rfl
@[simp] theorem State.setCs_status (xs : List Nat) : (s.setCs xs).status = s.status := rfl
@[simp] theorem State.setCs_faultKind (xs : List Nat) : (s.setCs xs).faultKind = s.faultKind := rfl
@[simp] theorem State.setCs_faultPc (xs : List Nat) : (s.setCs xs).faultPc = s.faultPc := rfl
@[simp] theorem State.setCs_out (xs : List Nat) : (s.setCs xs).out = s.out := rfl

/-! ### `State.setFp` -/

@[simp] theorem State.setFp_cfg (f : Nat) : (s.setFp f).cfg = s.cfg := rfl
@[simp] theorem State.setFp_prog (f : Nat) : (s.setFp f).prog = s.prog := rfl
@[simp] theorem State.setFp_pc (f : Nat) : (s.setFp f).pc = s.pc := rfl
@[simp] theorem State.setFp_os (f : Nat) : (s.setFp f).os = s.os := rfl
@[simp] theorem State.setFp_cs (f : Nat) : (s.setFp f).cs = s.cs := rfl
@[simp] theorem State.setFp_fp (f : Nat) : (s.setFp f).fp = f := rfl
@[simp] theorem State.setFp_status (f : Nat) : (s.setFp f).status = s.status := rfl
@[simp] theorem State.setFp_faultKind (f : Nat) : (s.setFp f).faultKind = s.faultKind := rfl
@[simp] theorem State.setFp_faultPc (f : Nat) : (s.setFp f).faultPc = s.faultPc := rfl
@[simp] theorem State.setFp_out (f : Nat) : (s.setFp f).out = s.out := rfl

/-! ### `State.halt` -/

@[simp] theorem State.halt_cfg : (s.halt).cfg = s.cfg := rfl
@[simp] theorem State.halt_prog : (s.halt).prog = s.prog := rfl
@[simp] theorem State.halt_pc : (s.halt).pc = s.pc := rfl
@[simp] theorem State.halt_os : (s.halt).os = s.os := rfl
@[simp] theorem State.halt_cs : (s.halt).cs = s.cs := rfl
@[simp] theorem State.halt_fp : (s.halt).fp = s.fp := rfl
@[simp] theorem State.halt_status : (s.halt).status = .halted := rfl
@[simp] theorem State.halt_faultKind : (s.halt).faultKind = s.faultKind := rfl
@[simp] theorem State.halt_faultPc : (s.halt).faultPc = s.faultPc := rfl
@[simp] theorem State.halt_out : (s.halt).out = s.out := rfl

/-! ### `State.emit` -/

@[simp] theorem State.emit_cfg (p : Nat) (v : Value) : (s.emit p v).cfg = s.cfg := rfl
@[simp] theorem State.emit_prog (p : Nat) (v : Value) : (s.emit p v).prog = s.prog := rfl
@[simp] theorem State.emit_pc (p : Nat) (v : Value) : (s.emit p v).pc = s.pc := rfl
@[simp] theorem State.emit_os (p : Nat) (v : Value) : (s.emit p v).os = s.os := rfl
@[simp] theorem State.emit_cs (p : Nat) (v : Value) : (s.emit p v).cs = s.cs := rfl
@[simp] theorem State.emit_fp (p : Nat) (v : Value) : (s.emit p v).fp = s.fp := rfl
@[simp] theorem State.emit_status (p : Nat) (v : Value) : (s.emit p v).status = s.status := rfl
@[simp] theorem State.emit_faultKind (p : Nat) (v : Value) : (s.emit p v).faultKind = s.faultKind := rfl
@[simp] theorem State.emit_faultPc (p : Nat) (v : Value) : (s.emit p v).faultPc = s.faultPc := rfl
@[simp] theorem State.emit_out (p : Nat) (v : Value) : (s.emit p v).out = pushTop s.out { pc := p, value := v } := rfl

/-! ### `State.enterFault` -/

@[simp] theorem State.enterFault_cfg (k : FaultKind) (p : Nat) : (s.enterFault k p).cfg = s.cfg := rfl
@[simp] theorem State.enterFault_prog (k : FaultKind) (p : Nat) : (s.enterFault k p).prog = s.prog := rfl
@[simp] theorem State.enterFault_pc (k : FaultKind) (p : Nat) : (s.enterFault k p).pc = p := rfl
@[simp] theorem State.enterFault_os (k : FaultKind) (p : Nat) : (s.enterFault k p).os = s.os := rfl
@[simp] theorem State.enterFault_cs (k : FaultKind) (p : Nat) : (s.enterFault k p).cs = s.cs := rfl
@[simp] theorem State.enterFault_fp (k : FaultKind) (p : Nat) : (s.enterFault k p).fp = s.fp := rfl
@[simp] theorem State.enterFault_status (k : FaultKind) (p : Nat) : (s.enterFault k p).status = .faulted := rfl
@[simp] theorem State.enterFault_faultKind (k : FaultKind) (p : Nat) : (s.enterFault k p).faultKind = k := rfl
@[simp] theorem State.enterFault_faultPc (k : FaultKind) (p : Nat) : (s.enterFault k p).faultPc = p := rfl
@[simp] theorem State.enterFault_out (k : FaultKind) (p : Nat) : (s.enterFault k p).out = s.out := rfl

/-! ### `State.afterOpcode` -/

@[simp] theorem State.afterOpcode_cfg : (s.afterOpcode).cfg = s.cfg := rfl
@[simp] theorem State.afterOpcode_prog : (s.afterOpcode).prog = s.prog := rfl
@[simp] theorem State.afterOpcode_pc : (s.afterOpcode).pc = s.pc + 1 := rfl
@[simp] theorem State.afterOpcode_os : (s.afterOpcode).os = s.os := rfl
@[simp] theorem State.afterOpcode_cs : (s.afterOpcode).cs = s.cs := rfl
@[simp] theorem State.afterOpcode_fp : (s.afterOpcode).fp = s.fp := rfl
@[simp] theorem State.afterOpcode_status : (s.afterOpcode).status = s.status := rfl
@[simp] theorem State.afterOpcode_faultKind : (s.afterOpcode).faultKind = s.faultKind := rfl
@[simp] theorem State.afterOpcode_faultPc : (s.afterOpcode).faultPc = s.faultPc := rfl
@[simp] theorem State.afterOpcode_out : (s.afterOpcode).out = s.out := rfl

/-! ### `State.afterOperand` -/

@[simp] theorem State.afterOperand_cfg : (s.afterOperand).cfg = s.cfg := rfl
@[simp] theorem State.afterOperand_prog : (s.afterOperand).prog = s.prog := rfl
@[simp] theorem State.afterOperand_pc : (s.afterOperand).pc = s.pc + 1 := rfl
@[simp] theorem State.afterOperand_os : (s.afterOperand).os = s.os := rfl
@[simp] theorem State.afterOperand_cs : (s.afterOperand).cs = s.cs := rfl
@[simp] theorem State.afterOperand_fp : (s.afterOperand).fp = s.fp := rfl
@[simp] theorem State.afterOperand_status : (s.afterOperand).status = s.status := rfl
@[simp] theorem State.afterOperand_faultKind : (s.afterOperand).faultKind = s.faultKind := rfl
@[simp] theorem State.afterOperand_faultPc : (s.afterOperand).faultPc = s.faultPc := rfl
@[simp] theorem State.afterOperand_out : (s.afterOperand).out = s.out := rfl

end Sys2Proof.Machine
end

