-- ==== Sys2Proof/Laws/Ops.lean ====
section
/-! SUPPORT. One lemma per shared operation that says once everything it can do: the stacks, the arithmetic, the addressing
modes and the shared shapes of meanings. -/

namespace Sys2Proof.Machine

/-! ### Stacks -/

@[simp] theorem pushTop_length {α : Type} (xs : List α) (v : α) : (pushTop xs v).length = xs.length + 1 := by
  simp [pushTop]

theorem pop?_eq_some {α : Type} {xs ys : List α} {v : α} : pop? xs = some (ys, v) ↔ xs = ys ++ [v] := by
  unfold pop?
  constructor
  · intro h
    split at h
    · cases h
    · next w hw =>
      simp only [Option.some.injEq, Prod.mk.injEq] at h
      obtain ⟨rfl, rfl⟩ := h
      exact (List.dropLast_append_getLast? w hw).symm
  · rintro rfl; simp

theorem pop?_eq_none {α : Type} {xs : List α} : pop? xs = none ↔ xs = [] := by
  unfold pop?
  split
  · next h => simpa using h
  · next v h => simp only [reduceCtorEq, false_iff]; rintro rfl; cases h

@[simp] theorem pop?_append {α : Type} (ys : List α) (v : α) : pop? (ys ++ [v]) = some (ys, v) := pop?_eq_some.2 rfl

theorem pop2?_eq_some {α : Type} {xs zs : List α} {u v : α} : pop2? xs = some (zs, u, v) ↔ xs = zs ++ [u, v] := by
  unfold pop2?
  constructor
  · intro h
    split at h
    · cases h
    · next ys top hy =>
      split at h
      · cases h
      · next zs' second hz =>
        simp only [Option.some.injEq, Prod.mk.injEq] at h
        obtain ⟨rfl, rfl, rfl⟩ := h
        rw [pop?_eq_some.1 hy, pop?_eq_some.1 hz]; simp
  · rintro rfl
    rw [show zs ++ [u, v] = (zs ++ [u]) ++ [v] by simp, pop?_append]
    simp

@[simp] theorem pop2?_append {α : Type} (zs : List α) (u v : α) : pop2? (zs ++ [u, v]) = some (zs, u, v) :=
  pop2?_eq_some.2 rfl

theorem pop2?_eq_none {α : Type} {xs : List α} : pop2? xs = none ↔ xs.length < 2 := by
  rcases List.eq_nil_or_concat xs with rfl | ⟨ys, v, rfl⟩
  · simp [pop2?, pop?]
  · rcases List.eq_nil_or_concat ys with rfl | ⟨zs, u, rfl⟩
    · simp [pop2?, pop?]
    · rw [show (zs.concat u).concat v = zs ++ [u, v] by simp, pop2?_append]
      simp

/-! ### Arithmetic -/

/-- `wrap32` reduces modulo 2^32 into the signed range (R10). -/
theorem wrap32_toInt (z : Int) : (wrap32 z).toInt = z.bmod (2 ^ 32) := by
  rw [wrap32, BitVec.toInt_ofInt]

/-- A number that fits 32 bits is left alone. -/
theorem wrap32_toInt_of_fits {z : Int} (h1 : -2 ^ 31 ≤ z) (h2 : z < 2 ^ 31) : (wrap32 z).toInt = z := by
  rw [wrap32_toInt, Int.bmod_eq_of_le] <;> omega

/-- `wrap32` of a value's own number is the value. -/
theorem wrap32_of_toInt_eq {v : Value} {z : Int} (h : v.toInt = z.bmod (2 ^ 32)) : wrap32 z = v :=
  BitVec.eq_of_toInt_eq (by rw [wrap32_toInt, h])

/-- The spec's formula for the quotient is Lean's truncating division. -/
theorem tdiv_eq (x y : Int) : tdiv x y = Int.tdiv x y := by
  unfold tdiv
  rcases Int.lt_trichotomy x 0 with hx | rfl | hx <;> rcases Int.lt_trichotomy y 0 with hy | rfl | hy <;> try simp
  · obtain ⟨m, rfl⟩ : ∃ m : Nat, x = -(m : Int) := ⟨x.natAbs, by omega⟩
    obtain ⟨n, rfl⟩ : ∃ n : Nat, y = -(n : Int) := ⟨y.natAbs, by omega⟩
    rw [Int.sign_eq_neg_one_of_neg hx, Int.sign_eq_neg_one_of_neg hy]
    simp [Int.neg_tdiv, Int.tdiv_neg]
  · obtain ⟨m, rfl⟩ : ∃ m : Nat, x = -(m : Int) := ⟨x.natAbs, by omega⟩
    obtain ⟨n, rfl⟩ : ∃ n : Nat, y = (n : Int) := ⟨y.natAbs, by omega⟩
    rw [Int.sign_eq_neg_one_of_neg hx, Int.sign_eq_one_of_pos hy]
    simp [Int.neg_tdiv]
  · obtain ⟨m, rfl⟩ : ∃ m : Nat, x = (m : Int) := ⟨x.natAbs, by omega⟩
    obtain ⟨n, rfl⟩ : ∃ n : Nat, y = -(n : Int) := ⟨y.natAbs, by omega⟩
    rw [Int.sign_eq_one_of_pos hx, Int.sign_eq_neg_one_of_neg hy]
    simp [Int.tdiv_neg]
  · obtain ⟨m, rfl⟩ : ∃ m : Nat, x = (m : Int) := ⟨x.natAbs, by omega⟩
    obtain ⟨n, rfl⟩ : ∃ n : Nat, y = (n : Int) := ⟨y.natAbs, by omega⟩
    rw [Int.sign_eq_one_of_pos hx, Int.sign_eq_one_of_pos hy]
    simp

/-! ### Addresses -/

/-- The cell an address names, when it names one (R140). -/
theorem slotIndex_eq_some {addr : Int} {n k : Nat} : slotIndex addr n = some k ↔ addr = (k : Int) ∧ k < n := by
  unfold slotIndex
  split
  · simp only [Option.some.injEq]; omega
  · simp only [reduceCtorEq, false_iff]; omega

/-- An address that names no cell is negative or not below the length (R140). -/
theorem slotIndex_eq_none {addr : Int} {n : Nat} : slotIndex addr n = none ↔ addr < 0 ∨ (n : Int) ≤ addr := by
  unfold slotIndex
  split <;> simp <;> omega

theorem readSlot_eq_some {xs : List Value} {addr : Int} {v : Value} :
    readSlot xs addr = some v ↔ ∃ k : Nat, addr = (k : Int) ∧ xs[k]? = some v := by
  unfold readSlot
  constructor
  · intro h
    split at h
    · cases h
    · next k hk => exact ⟨k, (slotIndex_eq_some.1 hk).1, h⟩
  · rintro ⟨k, rfl, hv⟩
    have hlt : k < xs.length := by
      by_contra hge
      rw [List.getElem?_eq_none (by omega)] at hv
      cases hv
    rw [slotIndex_eq_some.2 ⟨rfl, hlt⟩]
    exact hv

theorem readSlot_eq_none {xs : List Value} {addr : Int} :
    readSlot xs addr = none ↔ addr < 0 ∨ (xs.length : Int) ≤ addr := by
  unfold readSlot
  split
  · next h => simpa using slotIndex_eq_none.1 h
  · next k h =>
    obtain ⟨rfl, hk⟩ := slotIndex_eq_some.1 h
    simp only [List.getElem?_eq_none_iff]; omega

theorem writeSlot_eq_some {xs ys : List Value} {addr : Int} {v : Value} :
    writeSlot xs addr v = some ys ↔ ∃ k : Nat, addr = (k : Int) ∧ k < xs.length ∧ ys = xs.set k v := by
  unfold writeSlot
  constructor
  · intro h
    split at h
    · cases h
    · next k hk =>
      obtain ⟨rfl, hlt⟩ := slotIndex_eq_some.1 hk
      exact ⟨k, rfl, hlt, (Option.some.inj h).symm⟩
  · rintro ⟨k, rfl, hlt, rfl⟩
    rw [slotIndex_eq_some.2 ⟨rfl, hlt⟩]

theorem writeSlot_eq_none {xs : List Value} {addr : Int} {v : Value} :
    writeSlot xs addr v = none ↔ addr < 0 ∨ (xs.length : Int) ≤ addr := by
  unfold writeSlot
  split
  · next h => simpa using slotIndex_eq_none.1 h
  · next k h => obtain ⟨rfl, hk⟩ := slotIndex_eq_some.1 h; simp [hk]

/-! ### Capacities -/

theorem osFull_eq_true {s : State} : s.osFull = true ↔ s.cfg.osCap = some s.os.length := by
  unfold State.osFull; split <;> simp_all [eq_comm]

theorem csFull_eq_true {s : State} : s.csFull = true ↔ ∃ n, s.cfg.csCap = some n ∧ n < s.cs.length + 2 := by
  unfold State.csFull; split <;> simp_all

/-! ### The shared shapes of meanings: what each answers, and nothing else -/

/-- Fault entry answers a next state (R161). -/
theorem raise_eq (k : FaultKind) (s : State) : raise k s = .next (s.enterFault k s.pc) := rfl

/-- `pushValue` raises `StackOverflow` or pushes. -/
theorem pushValue_cases {v : Value} {s t : State} (h : pushValue v s = .next t) :
    (s.osFull = true ∧ t = s.enterFault .stackOverflow s.pc) ∨ (s.osFull = false ∧ t = s.setOs (s.os ++ [v])) := by
  unfold pushValue at h
  split at h
  · exact .inl ⟨‹_›, by cases h; rfl⟩
  · exact .inr ⟨by simpa using ‹¬ s.osFull = true›, by cases h; rfl⟩

/-- `arith` raises `StackUnderflow` or replaces the two top cells by the result. -/
theorem arith_cases {f : Value → Value → Value} {s t : State} (h : arith f s = .next t) :
    (s.os.length < 2 ∧ t = s.enterFault .stackUnderflow s.pc) ∨
      ∃ rest second top, s.os = rest ++ [second, top] ∧ t = s.setOs (rest ++ [f top second]) := by
  unfold arith at h
  split at h
  · next hn => exact .inl ⟨pop2?_eq_none.1 hn, by cases h; rfl⟩
  · next rest second top hs => exact .inr ⟨rest, second, top, pop2?_eq_some.1 hs, by cases h; rfl⟩

/-- `loadSlot` raises `OutOfBoundsAccess`, raises `StackOverflow`, or pushes a copy of the cell. -/
theorem loadSlot_cases {addr : Int} {s t : State} (h : loadSlot addr s = .next t) :
    ((addr < 0 ∨ (s.os.length : Int) ≤ addr) ∧ t = s.enterFault .outOfBoundsAccess s.pc) ∨
      ∃ (k : Nat) (v : Value), addr = (k : Int) ∧ s.os[k]? = some v ∧
        ((s.osFull = true ∧ t = s.enterFault .stackOverflow s.pc) ∨
          (s.osFull = false ∧ t = s.setOs (s.os ++ [v]))) := by
  unfold loadSlot at h
  split at h
  · next hn => exact .inl ⟨readSlot_eq_none.1 hn, by cases h; rfl⟩
  · next v hv =>
    obtain ⟨k, hk, hkv⟩ := readSlot_eq_some.1 hv
    exact .inr ⟨k, v, hk, hkv, pushValue_cases h⟩

/-- `storeSlot` raises `StackUnderflow`, raises `OutOfBoundsAccess`, or pops the value and overwrites the cell. -/
theorem storeSlot_cases {addr : Int} {s t : State} (h : storeSlot addr s = .next t) :
    (s.os = [] ∧ t = s.enterFault .stackUnderflow s.pc) ∨
      ∃ (rest : List Value) (v : Value), s.os = rest ++ [v] ∧
        (((addr < 0 ∨ (rest.length : Int) ≤ addr) ∧ t = s.enterFault .outOfBoundsAccess s.pc) ∨
          ∃ k : Nat, addr = (k : Int) ∧ k < rest.length ∧ t = s.setOs (rest.set k v)) := by
  unfold storeSlot at h
  split at h
  · next hn => exact .inl ⟨pop?_eq_none.1 hn, by cases h; rfl⟩
  · next rest v hv =>
    refine .inr ⟨rest, v, pop?_eq_some.1 hv, ?_⟩
    split at h
    · next hn => exact .inl ⟨writeSlot_eq_none.1 hn, by cases h; rfl⟩
    · next xs hx =>
      obtain ⟨k, hk, hlt, rfl⟩ := writeSlot_eq_some.1 hx
      exact .inr ⟨k, hk, hlt, by cases h; rfl⟩

/-! ### The shared shapes of meanings: when each completes -/

theorem pushValue_of_not_full {v : Value} {s : State} (h : s.cfg.osCap ≠ some s.os.length) :
    pushValue v s = .next (s.setOs (s.os ++ [v])) := by
  rw [pushValue, if_neg (by rw [osFull_eq_true]; exact h), pushTop]

theorem pushValue_of_full {v : Value} {s : State} (h : s.cfg.osCap = some s.os.length) :
    pushValue v s = raise .stackOverflow s := by
  rw [pushValue, if_pos (osFull_eq_true.2 h)]

theorem arith_of_two {f : Value → Value → Value} {s : State} {rest : List Value} {second top : Value}
    (h : s.os = rest ++ [second, top]) : arith f s = .next (s.setOs (rest ++ [f top second])) := by
  rw [arith, h, pop2?_append]; rfl

theorem loadSlot_of_valid {s : State} {v : Value} {k : Nat} {addr : Int} (ha : addr = (k : Int))
    (hv : s.os[k]? = some v) : loadSlot addr s = pushValue v s := by
  rw [loadSlot, readSlot_eq_some.2 ⟨k, ha, hv⟩]

theorem loadSlot_of_invalid {s : State} {addr : Int} (h : addr < 0 ∨ (s.os.length : Int) ≤ addr) :
    loadSlot addr s = raise .outOfBoundsAccess s := by
  rw [loadSlot, readSlot_eq_none.2 h]

theorem storeSlot_of_valid {s : State} {rest : List Value} {v : Value} {k : Nat} {addr : Int} (h : s.os = rest ++ [v])
    (ha : addr = (k : Int)) (hk : k < rest.length) : storeSlot addr s = .next (s.setOs (rest.set k v)) := by
  simp [storeSlot, h, writeSlot_eq_some.2 ⟨k, ha, hk, rfl⟩]

theorem storeSlot_of_invalid {s : State} {rest : List Value} {v : Value} {addr : Int} (h : s.os = rest ++ [v])
    (ha : addr < 0 ∨ (rest.length : Int) ≤ addr) : storeSlot addr s = raise .outOfBoundsAccess s := by
  simp [storeSlot, h, writeSlot_eq_none.2 ha]

/-- JUMP_IF's test is on the whole value (R131). -/
theorem isNonzero_eq_true {c : Value} : isNonzero c = true ↔ c ≠ 0#32 := by simp [isNonzero]

end Sys2Proof.Machine
end

