-- ==== Sys2Proof/Laws/Step.lean ====
section
/-! SUPPORT. What fetch finds at the program counter, and what a step does with it (spec/40_dispatch.md R81 to R87). -/

namespace Sys2Proof.Machine

theorem fetch_endOfProgram {s : State} (h : s.pc = s.prog.len) : fetch s = .endOfProgram := by
  simp [fetch, h]

theorem fetch_beyondEnd {s : State} (h : s.prog.len < s.pc) : fetch s = .beyondEnd := by
  unfold fetch
  rw [if_neg (by omega), if_pos h]

/-- Below `PLEN` a fetch is the decoding of the window, which is not empty. -/
theorem fetch_of_lt {s : State} (h : s.pc < s.prog.len) :
    (∃ i rest, decode (s.prog.window s.pc) = .instr i rest ∧ fetch s = .instr i) ∨
      (∃ b, decode (s.prog.window s.pc) = .unknownOpcode b ∧ fetch s = .unknownOpcode) ∨
        ∃ op, decode (s.prog.window s.pc) = .truncated op ∧ fetch s = .truncated op := by
  unfold fetch
  rw [if_neg (by omega), if_neg (by omega)]
  split
  · next i rest hd => exact .inl ⟨i, rest, hd, rfl⟩
  · next b hd => exact .inr (.inl ⟨b, hd, rfl⟩)
  · next op hd => exact .inr (.inr ⟨op, hd, rfl⟩)
  · next hd =>
    obtain ⟨b, hb⟩ := Option.isSome_iff_exists.1 (Memory.read?_isSome.2 h)
    have key : ∀ (op : Opcode) (r : List Byte), decodeOperand op r ≠ .noByte := by
      intro op r; cases op <;> cases r <;> simp [decodeOperand, takeOperand]
    rw [Memory.window_cons hb, decode] at hd
    split at hd
    · cases hd
    · exact absurd hd (key _ _)

/-- A running engine's step is decided by its fetch. -/
theorem step_running {s : State} (h : s.status = .running) :
    step s = match fetch s with
      | .endOfProgram => haltAtEnd s
      | .beyondEnd => faultBeyondEnd s
      | .unknownOpcode => faultUnknownOpcode s
      | .truncated op => faultTruncated op s
      | .instr i => exec i s := by
  cases s; cases h; rfl

/-- A step that has a next state was taken by a running engine (R81). -/
theorem running_of_step {s t : State} (h : step s = .next t) : s.status = .running := by
  unfold step at h
  split at h
  · cases h
  · cases h
  · assumption

/-- Fetch finds an instruction exactly where the window decodes to it. -/
theorem fetch_eq_instr {s : State} {i : Instr} :
    fetch s = .instr i ↔ s.pc < s.prog.len ∧ ∃ rest, decode (s.prog.window s.pc) = .instr i rest := by
  constructor
  · intro h
    rcases Nat.lt_trichotomy s.pc s.prog.len with hlt | heq | hgt
    · refine ⟨hlt, ?_⟩
      rcases fetch_of_lt hlt with ⟨j, rest, hd, hf⟩ | ⟨b, _, hf⟩ | ⟨op, _, hf⟩
      · rw [hf] at h; cases h; exact ⟨rest, hd⟩
      · rw [hf] at h; cases h
      · rw [hf] at h; cases h
    · rw [fetch_endOfProgram heq] at h; cases h
    · rw [fetch_beyondEnd hgt] at h; cases h
  · rintro ⟨hlt, rest, hd⟩
    rcases fetch_of_lt hlt with ⟨j, rest', hd', hf⟩ | ⟨b, hd', _⟩ | ⟨op, hd', _⟩
    · rw [hd] at hd'; cases hd'; exact hf
    · rw [hd] at hd'; cases hd'
    · rw [hd] at hd'; cases hd'

/-- The word a host stores with `withFetchWord` is the instruction the very next step runs, whatever ran before. -/
theorem step_withFetchWord {s : State} {nbits w : Nat} {i : Instr} (hwf : s.prog.wf = true)
    (h : decodeTableWord nbits w = some i) : step (s.withFetchWord nbits w) = exec i (s.withFetchWord nbits w) := by
  have hlen : (s.withFetchWord nbits w).pc < (s.withFetchWord nbits w).prog.len := by
    show s.pc < (s.prog.loadBytes s.pc (wordBytes nbits w)).len
    rw [Memory.loadBytes_len]
    simp only [wordBytes, reduceCtorEq, if_false, List.length_cons, List.length_nil]; omega
  have hwin : (s.withFetchWord nbits w).prog.window (s.withFetchWord nbits w).pc = wordBytes nbits w := by
    show (s.prog.loadBytes s.pc (wordBytes nbits w)).window s.pc = wordBytes nbits w
    unfold Memory.window
    rw [Memory.read?_loadBytes hwf _ _ _ (.inr (by simp [wordBytes])),
      Memory.read?_loadBytes hwf _ _ _ (.inr (by simp [wordBytes]))]
    simp [wordBytes]
  have hdec : ∃ rest, decode (wordBytes nbits w) = .instr i rest := by
    unfold decodeTableWord at h
    split at h
    · next j rest hd => exact ⟨rest, by rw [hd, Option.some.inj h]⟩
    all_goals cases h
  rw [step_running (by rfl), fetch_eq_instr.2 ⟨hlen, by rw [hwin]; exact hdec⟩]

end Sys2Proof.Machine
end

