-- ==== Sys2Proof/Laws/Exec.lean ====
section
/-! SUPPORT. What an instruction can do, said once for all of them, and what a step can do. A proof about every instruction
takes `exec_outcome` apart instead of unfolding `exec`. -/

namespace Sys2Proof.Machine

/-- The instruction pushes onto the operand stack without popping (R109). -/
def Pushes (i : Instr) : Prop :=
  (∃ imm, i = .push imm) ∨ (∃ idx, i = .loadLocal idx) ∨ ∃ idx, i = .loadParam idx

/-- The instruction is STORE_LOCAL or STORE_PARAM. -/
def Stores (i : Instr) : Prop := (∃ idx, i = .storeLocal idx) ∨ ∃ idx, i = .storeParam idx

/-- Every next state of an instruction is one of these: four faults, then the completions. -/
inductive ExecOutcome (i : Instr) (s : State) : State → Prop where
  | underflow (p : Nat) (h : s.os.length < osNeeded i ∨ s.cs.length < csNeeded i)
      (hp : Stores i ∧ p = s.pc + 2 ∨ ¬ Stores i ∧ p = s.pc + 1) : ExecOutcome i s (s.asFaulted .stackUnderflow p)
  | zeroDivisor (hi : i = .div) (h : 2 ≤ s.os.length) : ExecOutcome i s (s.asFaulted .divisionByZero (s.pc + 1))
  | outOfBounds (hi : (∃ idx, i = .loadLocal idx) ∨ (∃ idx, i = .loadParam idx) ∨ Stores i)
      (h : osNeeded i ≤ s.os.length) : ExecOutcome i s (s.asFaulted .outOfBoundsAccess (s.pc + 2))
  | osOverflow (hi : Pushes i) (h : s.cfg.osCap = some s.os.length) :
      ExecOutcome i s (s.asFaulted .stackOverflow (s.pc + 2))
  | csOverflow (target n : Nat) (hi : i = .call target) (hc : s.cfg.csCap = some n) (h : n < s.cs.length + 2) :
      ExecOutcome i s (s.asFaulted .stackOverflow (s.pc + 2))
  | pushed (v : Value) (hi : Pushes i) (h : s.cfg.osCap ≠ some s.os.length) :
      ExecOutcome i s { s with pc := s.pc + 2, os := s.os ++ [v] }
  | computed (rest : List Value) (second top v : Value) (h : s.os = rest ++ [second, top])
      (hi : i = .add ∨ i = .sub ∨ i = .mul ∨ i = .div) : ExecOutcome i s { s with pc := s.pc + 1, os := rest ++ [v] }
  | printed (rest : List Value) (v : Value) (h : s.os = rest ++ [v]) (hi : i = .print) :
      ExecOutcome i s { s with pc := s.pc + 1, os := rest, out := s.out ++ [{ pc := s.pc + 1, value := v }] }
  | called (target : Nat) (hi : i = .call target) (h : ∀ n, s.cfg.csCap = some n → s.cs.length + 2 ≤ n) :
      ExecOutcome i s { s with cs := s.cs ++ [s.pc + 2, s.fp], fp := s.os.length, pc := target }
  | returned (rest : List Nat) (returnPc savedFp : Nat) (hi : i = .ret) (h : s.cs = rest ++ [returnPc, savedFp]) :
      ExecOutcome i s { s with cs := rest, fp := savedFp, pc := returnPc }
  | jumped (target : Nat) (hi : i = .jump target) : ExecOutcome i s { s with pc := target }
  | tested (target : Nat) (rest : List Value) (c : Value) (p : Nat) (hi : i = .jumpIf target) (h : s.os = rest ++ [c])
      (hp : p = s.pc + 2 ∨ p = target) : ExecOutcome i s { s with os := rest, pc := p }
  | stored (rest : List Value) (v : Value) (k : Nat) (h : s.os = rest ++ [v]) (hk : k < rest.length)
      (hi : (∃ idx, i = .storeLocal idx ∧ k = s.fp + idx) ∨ ∃ idx, i = .storeParam idx ∧ k + (idx + 1) = s.fp) :
      ExecOutcome i s { s with pc := s.pc + 2, os := rest.set k v }
  | halted (hi : i = .halt) : ExecOutcome i s { s with pc := s.pc + 1, status := .halted }

/-! ### One lemma per shared shape -/

theorem outcome_of_arith {i : Instr} {s t : State} {f : Value → Value → Value}
    (hi : i = .add ∨ i = .sub ∨ i = .mul ∨ i = .div) (h : arith f s.afterOpcode = .next t) : ExecOutcome i s t := by
  rcases arith_cases h with ⟨hl, rfl⟩ | ⟨rest, second, top, hs, rfl⟩
  · refine .underflow (s.pc + 1) (.inl ?_) (.inr ⟨?_, rfl⟩)
    · rcases hi with rfl | rfl | rfl | rfl <;> exact hl
    · rcases hi with rfl | rfl | rfl | rfl <;> simp [Stores]
  · exact .computed rest second top _ hs hi

theorem outcome_of_pushValue {i : Instr} {s t : State} {v : Value} (hi : Pushes i)
    (h : pushValue v s.afterOpcode.afterOperand = .next t) : ExecOutcome i s t := by
  rcases pushValue_cases h with ⟨hf, rfl⟩ | ⟨hf, rfl⟩
  · exact .osOverflow hi (osFull_eq_true.1 hf)
  · exact .pushed v hi (by rw [← Bool.not_eq_true, osFull_eq_true] at hf; exact hf)

theorem outcome_of_loadSlot {i : Instr} {s t : State} {addr : Int}
    (hi : (∃ idx, i = .loadLocal idx) ∨ ∃ idx, i = .loadParam idx)
    (h : loadSlot addr s.afterOpcode.afterOperand = .next t) : ExecOutcome i s t := by
  have h0 : osNeeded i = 0 := by rcases hi with ⟨_, rfl⟩ | ⟨_, rfl⟩ <;> rfl
  unfold loadSlot at h
  split at h
  · cases h; exact .outOfBounds (hi.imp_right .inl) (by omega)
  · exact outcome_of_pushValue (.inr hi) h

theorem outcome_of_storeSlot {i : Instr} {s t : State} {addr : Int}
    (hi : (∃ idx, i = .storeLocal idx ∧ addr = localAddr s.fp idx) ∨
      ∃ idx, i = .storeParam idx ∧ addr = paramAddr s.fp idx)
    (h : storeSlot addr s.afterOpcode.afterOperand = .next t) : ExecOutcome i s t := by
  have h1 : osNeeded i = 1 := by rcases hi with ⟨_, rfl, _⟩ | ⟨_, rfl, _⟩ <;> rfl
  have hst : Stores i := hi.imp (fun ⟨idx, e, _⟩ => ⟨idx, e⟩) (fun ⟨idx, e, _⟩ => ⟨idx, e⟩)
  rcases storeSlot_cases h with ⟨he, rfl⟩ | ⟨rest, v, hs, ⟨_, rfl⟩ | ⟨k, hk, hlt, rfl⟩⟩
  · exact .underflow (s.pc + 2) (.inl (by rw [h1, show s.os = [] from he]; simp)) (.inl ⟨hst, rfl⟩)
  · exact .outOfBounds (.inr (.inr hst)) (by rw [h1, show s.os = rest ++ [v] from hs]; simp)
  · refine .stored rest v k hs hlt ?_
    rcases hi with ⟨idx, e, ha⟩ | ⟨idx, e, ha⟩
    · refine .inl ⟨idx, e, ?_⟩
      rw [ha, localAddr] at hk; omega
    · refine .inr ⟨idx, e, ?_⟩
      rw [ha, paramAddr] at hk; omega

/-- What an instruction can do. -/
theorem exec_outcome {i : Instr} {s t : State} (h : exec i s = .next t) : ExecOutcome i s t := by
  cases i with
  | push imm => exact outcome_of_pushValue (.inl ⟨_, rfl⟩) h
  | add => exact outcome_of_arith (by simp) h
  | sub => exact outcome_of_arith (by simp) h
  | mul => exact outcome_of_arith (by simp) h
  | div =>
    simp only [exec, execDiv] at h
    split at h
    · next hn => cases h; exact .underflow _ (.inl (pop2?_eq_none.1 hn)) (.inr ⟨by simp [Stores], rfl⟩)
    · next rest second top hs =>
      have hs' := pop2?_eq_some.1 hs
      split at h
      · cases h; exact .zeroDivisor rfl (by rw [hs']; simp)
      · cases h; exact .computed rest second top _ hs' (by simp)
  | print =>
    simp only [exec, execPrint] at h
    split at h
    · next hn =>
      cases h
      exact .underflow _ (.inl (by rw [pop?_eq_none.1 hn]; simp [osNeeded])) (.inr ⟨by simp [Stores], rfl⟩)
    · next rest v hs => cases h; exact .printed rest v (pop?_eq_some.1 hs) rfl
  | call target =>
    simp only [exec, execCall] at h
    split at h
    · next hf =>
      obtain ⟨n, hn, hl⟩ := csFull_eq_true.1 hf
      cases h; exact .csOverflow target n rfl hn hl
    · next hf =>
      cases h
      have := ExecOutcome.called (i := .call target) (s := s) target rfl (by
        intro n hn; by_contra hlt; exact hf (csFull_eq_true.2 ⟨n, hn, by omega⟩))
      simpa [pushTop, State.setCs, State.setFp, State.setPc] using this
  | ret =>
    simp only [exec, execRet] at h
    split at h
    · next hn => cases h; exact .underflow _ (.inr (pop2?_eq_none.1 hn)) (.inr ⟨by simp [Stores], rfl⟩)
    · next rest r f hs => cases h; exact .returned rest r f rfl (pop2?_eq_some.1 hs)
  | jump target => cases h; exact .jumped target rfl
  | jumpIf target =>
    simp only [exec, execJumpIf] at h
    split at h
    · next hn =>
      cases h
      exact .underflow _ (.inl (by rw [pop?_eq_none.1 hn]; simp [osNeeded])) (.inr ⟨by simp [Stores], rfl⟩)
    · next rest c hs =>
      split at h
      · cases h; exact .tested target rest c _ rfl (pop?_eq_some.1 hs) (.inr rfl)
      · cases h; exact .tested target rest c _ rfl (pop?_eq_some.1 hs) (.inl rfl)
  | storeLocal idx => exact outcome_of_storeSlot (.inl ⟨idx, rfl, rfl⟩) h
  | loadLocal idx => exact outcome_of_loadSlot (.inl ⟨idx, rfl⟩) h
  | storeParam idx => exact outcome_of_storeSlot (.inr ⟨idx, rfl, rfl⟩) h
  | loadParam idx => exact outcome_of_loadSlot (.inr ⟨idx, rfl⟩) h
  | halt => cases h; exact .halted rfl

/-! ### The step -/

/-- A two-byte opcode is found truncated only in the last byte of the program (R68). -/
theorem pc_of_fetch_truncated {s : State} {op : Opcode} (h : fetch s = .truncated op) : s.pc + 1 = s.prog.len := by
  rcases Nat.lt_trichotomy s.pc s.prog.len with hlt | heq | hgt
  · by_contra hne
    obtain ⟨b, hb⟩ := Option.isSome_iff_exists.1 (Memory.read?_isSome.2 hlt)
    obtain ⟨c, hc⟩ := Option.isSome_iff_exists.1 (Memory.read?_isSome.2 (show s.pc + 1 < s.prog.len by omega))
    rcases fetch_of_lt hlt with ⟨j, rest, _, hf⟩ | ⟨b', _, hf⟩ | ⟨op', hd, _⟩
    · rw [hf] at h; cases h
    · rw [hf] at h; cases h
    · rw [Memory.window_cons hb, hc, decode] at hd
      split at hd
      · cases hd
      · next o _ => cases o <;> simp [decodeOperand, takeOperand] at hd
  · rw [fetch_endOfProgram heq] at h; cases h
  · rw [fetch_beyondEnd hgt] at h; cases h

/-- Every next state of a step is one of these (R81). -/
theorem step_cases {s t : State} (h : step s = .next t) : s.status = .running ∧
    ((s.pc = s.prog.len ∧ t = { s with status := .halted }) ∨
      (s.prog.len < s.pc ∧ t = s.asFaulted .programCounterOutOfRange s.pc) ∨
      (s.pc < s.prog.len ∧ fetch s = .unknownOpcode ∧ t = s.asFaulted .unknownOpcode s.pc) ∨
      (∃ op, s.pc + 1 = s.prog.len ∧ fetch s = .truncated op ∧
        ((op = .jumpIf ∧ s.os = [] ∧ t = s.asFaulted .stackUnderflow (s.pc + 1)) ∨
          (¬ (op = .jumpIf ∧ s.os = []) ∧ t = s.asFaulted .programCounterOutOfRange (s.pc + 1)))) ∨
      ∃ i, s.pc < s.prog.len ∧ fetch s = .instr i ∧ exec i s = .next t) := by
  have hr := running_of_step h
  refine ⟨hr, ?_⟩
  rw [step_running hr] at h
  rcases Nat.lt_trichotomy s.pc s.prog.len with hlt | heq | hgt
  · rcases fetch_of_lt hlt with ⟨j, rest, _, hf⟩ | ⟨b, _, hf⟩ | ⟨op, _, hf⟩
    · rw [hf] at h; exact .inr (.inr (.inr (.inr ⟨j, hlt, hf, h⟩)))
    · rw [hf] at h; cases h; exact .inr (.inr (.inl ⟨hlt, hf, rfl⟩))
    · rw [hf] at h
      refine .inr (.inr (.inr (.inl ⟨op, pc_of_fetch_truncated hf, hf, ?_⟩)))
      simp only [faultTruncated, Nat.lt_one_iff, List.length_eq_zero_iff] at h
      split at h
      · next hc => cases h; exact .inl ⟨hc.1, hc.2, rfl⟩
      · next hc => cases h; exact .inr ⟨hc, rfl⟩
  · rw [fetch_endOfProgram heq] at h; cases h; exact .inl ⟨heq, rfl⟩
  · rw [fetch_beyondEnd hgt] at h; cases h; exact .inr (.inl ⟨hgt, rfl⟩)

end Sys2Proof.Machine
end

