-- ==== Sys2Proof/Laws/PerInstr.lean ====
section
/-! SUPPORT. Facts about the instructions as syntax, one lemma per constructor (LAWS.json). The family `Lengths`: an
encoding is one or two bytes long and its first byte is a recognised opcode (spec/30_encoding.md R60, R65). -/

namespace Sys2Proof.Laws.Lengths

/-- The opcode of an instruction. -/
def opcodeOf : Instr → Opcode
  | .push _ => .push
  | .add => .add
  | .sub => .sub
  | .mul => .mul
  | .div => .div
  | .print => .print
  | .call _ => .call
  | .ret => .ret
  | .jump _ => .jump
  | .jumpIf _ => .jumpIf
  | .storeLocal _ => .storeLocal
  | .loadLocal _ => .loadLocal
  | .storeParam _ => .storeParam
  | .loadParam _ => .loadParam
  | .halt => .halt

/-- The encoding is the opcode's byte and at most one more byte. -/
def Statement (i : Instr) : Prop :=
  ∃ tail, encode i = (opcodeOf i).byte :: tail ∧ tail.length ≤ 1

theorem push (imm : Int) : Statement (.push imm) := ⟨[byteOfInt imm], rfl, by simp⟩
theorem add : Statement .add := ⟨[], rfl, by simp⟩
theorem sub : Statement .sub := ⟨[], rfl, by simp⟩
theorem mul : Statement .mul := ⟨[], rfl, by simp⟩
theorem div : Statement .div := ⟨[], rfl, by simp⟩
theorem print : Statement .print := ⟨[], rfl, by simp⟩
theorem call (target : Nat) : Statement (.call target) := ⟨[byteOfNat target], rfl, by simp⟩
theorem ret : Statement .ret := ⟨[], rfl, by simp⟩
theorem jump (target : Nat) : Statement (.jump target) := ⟨[byteOfNat target], rfl, by simp⟩
theorem jumpIf (target : Nat) : Statement (.jumpIf target) := ⟨[byteOfNat target], rfl, by simp⟩
theorem storeLocal (idx : Nat) : Statement (.storeLocal idx) := ⟨[byteOfNat idx], rfl, by simp⟩
theorem loadLocal (idx : Nat) : Statement (.loadLocal idx) := ⟨[byteOfNat idx], rfl, by simp⟩
theorem storeParam (idx : Nat) : Statement (.storeParam idx) := ⟨[byteOfNat idx], rfl, by simp⟩
theorem loadParam (idx : Nat) : Statement (.loadParam idx) := ⟨[byteOfNat idx], rfl, by simp⟩
theorem halt : Statement .halt := ⟨[], rfl, by simp⟩

end Sys2Proof.Laws.Lengths
end

