-- ==== Sys2Proof/Tests/Slice0.lean ====
section
/-! SUPPORT. Tests. Expected values come from the spec: the scenarios and vectors of spec/95_test_vectors.md (named S<n>,
V-…), the encodings of spec/30_encoding.md R64 written out bit by bit, and the tables of R108 and R168. The last part shows,
for each statement with hypotheses, a concrete state that meets them. -/

namespace Sys2Proof.Tests

open Sys2Proof.Machine

/-! ### Helpers -/

/-- A running engine with a program and an operand stack given as numbers, bottom first, at address 0 with `fp = 0`. -/
def engine (bytes : List Byte) (os : List Int) (cs : List Nat := []) (fp : Nat := 0) (cfg : Config := {}) : State :=
  { State.construct cfg (Memory.ofBytes bytes) with os := os.map (BitVec.ofInt 32), cs := cs, fp := fp }

/-- The next state, if there is one. -/
def nextOf : Result → Option State
  | .next t => some t
  | .fault _ => none
  | .refused _ => none

/-- The next state of one step. -/
def stepped (s : State) : Option State := nextOf (step s)

/-- What the vectors list of a state: pc, fp, os as numbers, cs. -/
def seen (s : State) : Nat × Nat × List Int × List Nat := (s.pc, s.fp, s.os.map (·.toInt), s.cs)

/-- The fault report of the next state of one step, with `pc`. -/
def report (s : State) : Option (Status × FaultKind × Nat × Nat) :=
  (stepped s).map (fun t => (t.status, t.faultKind, t.faultPc, t.pc))

/-! ### WellFormed: an ill-formed term for each check -/

theorem test_wf_refuses_imm_too_big : Instr.wf (.push 128) = false := by decide
theorem test_wf_refuses_imm_too_small : Instr.wf (.push (-129)) = false := by decide
theorem test_wf_refuses_call_target : Instr.wf (.call 256) = false := by decide
theorem test_wf_refuses_jump_target : Instr.wf (.jump 256) = false := by decide
theorem test_wf_refuses_jumpIf_target : Instr.wf (.jumpIf 256) = false := by decide
theorem test_wf_refuses_storeLocal_idx : Instr.wf (.storeLocal 256) = false := by decide
theorem test_wf_refuses_loadLocal_idx : Instr.wf (.loadLocal 256) = false := by decide
theorem test_wf_refuses_storeParam_idx : Instr.wf (.storeParam 256) = false := by decide
theorem test_wf_refuses_loadParam_idx : Instr.wf (.loadParam 256) = false := by decide
theorem test_wf_accepts_the_ends_of_the_ranges :
    Instr.wf (.push 127) && Instr.wf (.push (-128)) && Instr.wf (.jump 255) && Instr.wf (.loadParam 255) = true := by decide

/-! ### Decode: every constructor, from words written out bit by bit (R64) -/

theorem test_decode_push : decode [0b00000001#8, 0b11111101#8] = .instr (.push (-3)) [] := by decide
theorem test_decode_add : decode [0b00000010#8] = .instr .add [] := by decide
theorem test_decode_sub : decode [0b00000011#8] = .instr .sub [] := by decide
theorem test_decode_mul : decode [0b00000100#8] = .instr .mul [] := by decide
theorem test_decode_div : decode [0b00000101#8] = .instr .div [] := by decide
theorem test_decode_print : decode [0b00000110#8, 0b11111111#8] = .instr .print [0b11111111#8] := by decide
theorem test_decode_call : decode [0b00010000#8, 0b00001000#8] = .instr (.call 8) [] := by decide
theorem test_decode_ret : decode [0b00010001#8] = .instr .ret [] := by decide
theorem test_decode_jump : decode [0b00010010#8, 0b11111111#8] = .instr (.jump 255) [] := by decide
theorem test_decode_jumpIf : decode [0b00010011#8, 0b00001101#8] = .instr (.jumpIf 13) [] := by decide
theorem test_decode_storeLocal : decode [0b00100000#8, 0b00000010#8] = .instr (.storeLocal 2) [] := by decide
theorem test_decode_loadLocal : decode [0b00100001#8, 0b10000000#8] = .instr (.loadLocal 128) [] := by decide
theorem test_decode_storeParam : decode [0b00100010#8, 0b00000001#8] = .instr (.storeParam 1) [] := by decide
theorem test_decode_loadParam : decode [0b00100011#8, 0b00000001#8] = .instr (.loadParam 1) [] := by decide
theorem test_decode_halt : decode [0b11111111#8] = .instr .halt [] := by decide
theorem test_decode_rejects_0x00 : decode [0x00#8, 0x01#8] = .unknownOpcode 0x00#8 := by decide
theorem test_decode_rejects_truncated : decode [0x13#8] = .truncated .jumpIf := by decide
theorem test_encode_push_minus_three : encode (.push (-3)) = [0x01#8, 0xFD#8] := by decide
theorem test_table_word_push : decodeTableWord 16 0xFD01 = some (.push (-3)) := by decide
theorem test_table_word_without_operand_bits : decodeTableWord 8 0x10 = some (.call 0) := by decide
theorem test_table_word_illegal : decodeTableWord 8 0x24 = none := by decide

/-! ### The interface: a program from reset, the host's operations -/

theorem test_reset_halts_on_the_empty_program :
    (stepped State.reset).map (fun t => (t.status, seen t)) = some (.halted, 0, 0, [], []) := by decide  -- S6
theorem test_fetch_word_runs_first : (stepped (State.reset.withFetchWord 16 0x8001)).map seen = some (2, 0, [-128], []) := by
  decide
theorem test_terminal_has_no_step : nextOf (step (State.reset.halt)) = none := by decide
theorem test_core_reset : core.reset = State.reset := rfl
theorem test_run_stops_and_reports : (run 9 (engine [0x99#8] [])).outcome = ⟨.faulted, .unknownOpcode, 0⟩ := by decide  -- S4
theorem test_host_reset_restarts :
    (run 3 (engine [0x12#8, 0x05#8] [])).hostReset = engine [0x12#8, 0x05#8] [] := by decide
theorem test_codes : (Status.running.code, Status.halted.code, Status.faulted.code, FaultKind.noFault.code,
    FaultKind.divisionByZero.code, FaultKind.stackOverflow.code) = (0, 1, 2, 0, 4, 6) := by decide
theorem test_output_line : OutputEvent.line ⟨6, BitVec.ofInt 32 (-3)⟩ = "[pc: 6] printing value -3" := by decide
theorem test_program_zero_bytes_have_no_cell : Memory.ofBytes [0x01#8, 0x00#8, 0x06#8] = ⟨3, [(0, 0x01#8), (2, 0x06#8)]⟩ := by
  decide

/-! ### The step (V-DEC) -/

theorem test_step_illegal_0x24 : report (engine [0x24#8] []) = some (.faulted, .unknownOpcode, 0, 0) := by decide
theorem test_step_end_of_program :
    (stepped { engine [0x01#8, 0x05#8] [5] with pc := 2 }).map (fun t => (t.status, t.pc)) = some (.halted, 2) := by decide
theorem test_step_beyond_end :
    report { engine [0x12#8, 0x05#8] [] with pc := 5 } = some (.faulted, .programCounterOutOfRange, 5, 5) := by decide
theorem test_step_truncated_push : report (engine [0x01#8] []) = some (.faulted, .programCounterOutOfRange, 1, 1) := by decide
theorem test_step_truncated_jumpIf_with_condition :
    report { engine [0x01#8, 0x01#8, 0x13#8] [1] with pc := 2 } = some (.faulted, .programCounterOutOfRange, 3, 3) := by decide
theorem test_step_truncated_jumpIf_empty : report (engine [0x13#8] []) = some (.faulted, .stackUnderflow, 1, 1) := by decide
theorem test_step_truncated_store_empty :
    report (engine [0x20#8] []) = some (.faulted, .programCounterOutOfRange, 1, 1) := by decide
theorem test_step_decodes_by_position :  -- V-DEC-5
    report { engine [0x01#8, 0x02#8, 0x12#8, 0x01#8] [2] with pc := 1 } = some (.faulted, .stackUnderflow, 2, 2) := by decide

/-! ### The operand stack unit (V-ALU) -/

theorem test_push_sign_extends : (stepped (engine [0x01#8, 0x80#8] [])).map seen = some (2, 0, [-128], []) := by decide
theorem test_push_overflows_at_capacity :
    report { engine [0x01#8, 0x01#8, 0x01#8, 0x02#8, 0x01#8, 0x03#8] [1, 2] (cfg := { osCap := some 2 }) with pc := 4 } =
      some (.faulted, .stackOverflow, 6, 6) := by decide
theorem test_add_wraps : (stepped (engine [0x02#8] [1, 2147483647])).map seen = some (1, 0, [-2147483648], []) := by decide
theorem test_add_underflow_keeps_the_cell :
    (stepped (engine [0x02#8] [9])).map (fun t => (t.os, t.faultKind, t.faultPc)) = some ([9#32], .stackUnderflow, 1) := by decide
theorem test_sub_is_top_minus_second : (stepped (engine [0x03#8] [5, 2])).map seen = some (1, 0, [-3], []) := by decide
theorem test_sub_wraps : (stepped (engine [0x03#8] [1, -2147483648])).map seen = some (1, 0, [2147483647], []) := by decide
theorem test_mul_signed : (stepped (engine [0x04#8] [7, -6])).map seen = some (1, 0, [-42], []) := by decide
theorem test_mul_wraps : (stepped (engine [0x04#8] [65536, 32768])).map seen = some (1, 0, [-2147483648], []) := by decide
theorem test_div_truncates_toward_zero : (stepped (engine [0x05#8] [2, -7])).map seen = some (1, 0, [-3], []) := by decide
theorem test_div_by_zero_keeps_both_cells :
    (stepped (engine [0x05#8] [0, 4])).map (fun t => (t.os, t.faultKind, t.faultPc)) =
      some ([0#32, 4#32], .divisionByZero, 1) := by decide
theorem test_div_most_negative_by_minus_one :
    (stepped (engine [0x05#8] [-1, -2147483648])).map seen = some (1, 0, [-2147483648], []) := by decide
theorem test_print_emits_and_keeps_the_cell_below :
    (stepped (engine [0x06#8] [8, -5])).map (fun t => (seen t, t.out)) =
      some ((1, 0, [8], []), [⟨1, BitVec.ofInt 32 (-5)⟩]) := by decide
theorem test_print_underflow_emits_nothing :
    (stepped (engine [0x06#8] [])).map (fun t => (t.out, t.faultKind, t.faultPc)) = some ([], .stackUnderflow, 1) := by decide

/-! ### The call and frame manager (V-CAL) -/

theorem test_call_saves_and_enters :  -- P3, step 3
    (stepped { engine [0x01#8, 0x06#8, 0x01#8, 0x07#8, 0x10#8, 0x08#8] [6, 7] with pc := 4 }).map seen =
      some (8, 2, [6, 7], [6, 0]) := by decide
theorem test_call_overflows_at_capacity :
    (stepped (engine [0x10#8, 0x00#8] [] [2, 0, 2, 0] (cfg := { csCap := some 4 }))).map
      (fun t => (t.faultKind, t.faultPc, t.cs)) = some (.stackOverflow, 2, [2, 0, 2, 0]) := by decide
theorem test_return_restores :  -- R121's example
    (stepped (engine [0x11#8] [6, 7, 42, 42] [6, 0] (fp := 2))).map seen = some (6, 0, [6, 7, 42, 42], []) := by decide
theorem test_return_with_one_entry_keeps_it :
    (stepped (engine [0x11#8] [] [7])).map (fun t => (t.faultKind, t.faultPc, t.cs)) = some (.stackUnderflow, 1, [7]) := by decide

/-! ### The control-flow unit (V-BR) -/

theorem test_jump_absolute : (stepped (engine [0x12#8, 0x04#8, 0x01#8, 0x07#8, 0xFF#8] [])).map seen = some (4, 0, [], []) := by
  decide
theorem test_jumpIf_taken_on_most_negative :
    (stepped (engine [0x13#8, 0x09#8] [-2147483648])).map seen = some (9, 0, [], []) := by decide
theorem test_jumpIf_falls_through_on_zero : (stepped (engine [0x13#8, 0x09#8] [0])).map seen = some (2, 0, [], []) := by decide
theorem test_halt : (stepped (engine [0xFF#8, 0x99#8] [3])).map (fun t => (t.status, seen t)) =
    some (.halted, 1, 0, [3], []) := by decide

/-! ### The local and parameter accessor (V-LP) -/

theorem test_storeLocal_overwrites : (stepped (engine [0x20#8, 0x01#8] [3, 4, 9])).map seen = some (2, 0, [3, 9], []) := by decide
theorem test_storeLocal_not_its_own_cell : report (engine [0x20#8, 0x00#8] [3]) = some (.faulted, .outOfBoundsAccess, 2, 2) := by
  decide
theorem test_loadLocal_copies : (stepped (engine [0x21#8, 0x00#8] [3])).map seen = some (2, 0, [3, 3], []) := by decide
theorem test_loadLocal_index_is_unsigned : report (engine [0x21#8, 0xFF#8] [1]) = some (.faulted, .outOfBoundsAccess, 2, 2) := by
  decide
theorem test_storeParam_overwrites :
    (stepped (engine [0x22#8, 0x01#8] [6, 7, 9] (fp := 2))).map seen = some (2, 2, [9, 7], []) := by decide
theorem test_storeParam_bound_after_the_pop :
    report (engine [0x22#8, 0x00#8] [6, 7] (fp := 2)) = some (.faulted, .outOfBoundsAccess, 2, 2) := by decide
theorem test_loadParam_reads_below_fp :
    (stepped (engine [0x23#8, 0x01#8] [6, 7, 0] (fp := 2))).map seen = some (2, 2, [6, 7, 0, 6], []) := by decide
theorem test_loadParam_negative_address :
    report (engine [0x23#8, 0x02#8] [6, 7, 0] (fp := 2)) = some (.faulted, .outOfBoundsAccess, 2, 2) := by decide

/-! ### Witnesses: a state that meets the hypotheses of each statement, clause by clause, at a boundary value -/

theorem witness_DecodeUndoesEncode :
    (Instr.push (-128)).wf = true ∧ (Instr.call 255).wf = true ∧ (Instr.loadParam 0).wf = true ∧ Instr.halt.wf = true := by decide
theorem witness_DecodedBytesAreTheEncoding : decode [0x01#8, 0x80#8, 0x05#8] = .instr (.push (-128)) [0x05#8] := by decide
theorem witness_IllegalByteRanges :
    ∀ b ∈ [0x00#8, 0x07#8, 0x0F#8, 0x14#8, 0x1F#8, 0x24#8, 0xFE#8], IllegalByte b := by decide
theorem witness_IllegalByteFaultsAtItsAddress :
    (engine [0xFE#8] []).status = .running ∧ (engine [0xFE#8] []).prog.read? (engine [0xFE#8] []).pc = some 0xFE#8 ∧
    IllegalByte 0xFE#8 := by decide
theorem witness_TargetsAreTheOperandByte :
    fetch (engine [0x12#8, 0xFF#8] []) = .instr (.jump 255) ∧ fetch (engine [0x13#8, 0x00#8] []) = .instr (.jumpIf 0) ∧
    fetch (engine [0x10#8, 0xFF#8] []) = .instr (.call 255) := by decide
theorem witness_StepRunsTheDecodedInstruction :
    (engine [0x10#8, 0xFF#8] []).status = .running ∧ (Instr.call 255).wf = true ∧
    (engine [0x10#8, 0xFF#8] []).CodeAt (encode (.call 255)) ∧
    decode ((engine [0x10#8, 0xFF#8] []).prog.window (engine [0x10#8, 0xFF#8] []).pc) = .instr (.call 255) [] := by
  unfold State.CodeAt; decide
theorem witness_EndOfProgramHalts : (engine [] [1]).status = .running ∧ (engine [] [1]).pc = (engine [] [1]).prog.len := by decide
theorem witness_PcBeyondTheEndFaults :
    State.status { engine [0x02#8] [] with pc := 2 } = .running ∧
    Memory.len (State.prog { engine [0x02#8] [] with pc := 2 }) < State.pc { engine [0x02#8] [] with pc := 2 } := by decide
theorem witness_TruncatedInstructionFaults :
    (engine [0x13#8] []).status = .running ∧ (engine [0x13#8] []).prog.read? (engine [0x13#8] []).pc = some 0x13#8 ∧
    (engine [0x13#8] []).pc + 1 = (engine [0x13#8] []).prog.len ∧ (engine [0x13#8] []).os = [] ∧
    (engine [0x23#8] []).prog.read? (engine [0x23#8] []).pc = some 0x23#8 ∧ (engine [0x23#8] []).pc + 1 = (engine [0x23#8] []).prog.len := by
  decide
theorem witness_TerminalStatesHaveNoStep :
    (State.reset.halt).status = .halted ∧ (State.reset.asFaulted .stackUnderflow 1).status = .faulted := by decide
theorem witness_RunEndsOnlyByHaltOrFault :
    stepped (engine [0xFF#8] []) = some { engine [0xFF#8] [] with pc := 1, status := .halted } ∧
    stepped (engine [0x11#8] []) = some ((engine [0x11#8] []).asFaulted .stackUnderflow 1) := by decide
theorem witness_PushPushesTheSignExtendedByte :
    (engine [0x01#8, 0x80#8] []).cfg.osCap ≠ some (engine [0x01#8, 0x80#8] []).os.length ∧
    (BitVec.ofInt 32 (-128)).toInt = -128 ∧
    (engine [0x01#8, 0x80#8] []).prog.read? 0 = some 0x01#8 ∧ (engine [0x01#8, 0x80#8] []).prog.read? 1 = some 0x80#8 ∧
    (engine [] [7] (cfg := { osCap := some 1 })).cfg.osCap = some (engine [] [7] (cfg := { osCap := some 1 })).os.length ∧
    (engine [0x01#8] []).prog.read? (engine [0x01#8] []).pc = some 0x01#8 ∧ (engine [0x01#8] []).pc + 1 = (engine [0x01#8] []).prog.len := by
  decide
theorem witness_Arithmetic :  -- ADD, SUB, MUL and DIV of -2^31 and -1, where the last three wrap
    (engine [] [-1, -2147483648]).cfg.ovf = .wrap ∧
    (engine [] [-1, -2147483648]).os = [] ++ [BitVec.ofInt 32 (-1), BitVec.ofInt 32 (-2147483648)] ∧
    (BitVec.ofInt 32 2147483647).toInt = ((-2147483648 : Int) + -1).bmod (2 ^ 32) ∧
    (BitVec.ofInt 32 (-2147483647)).toInt = ((-2147483648 : Int) - -1).bmod (2 ^ 32) ∧
    (BitVec.ofInt 32 (-2147483648)).toInt = ((-2147483648 : Int) * -1).bmod (2 ^ 32) ∧
    (BitVec.ofInt 32 (-1)).toInt ≠ 0 ∧
    (BitVec.ofInt 32 (-2147483648)).toInt = (Int.tdiv (-2147483648) (-1)).bmod (2 ^ 32) := by decide
theorem witness_ZeroDivisorFaultsZeroDividendDoesNot :
    (engine [] [0, 4]).os = [] ++ [0#32, 4#32] ∧ (engine [] [0]).os.length < 2 ∧
    (engine [] [4, 0]).os = [] ++ [4#32, 0#32] ∧ (4#32 : Value) ≠ 0#32 := by decide
theorem witness_TopIsTheLeftOperand :  -- T1's instance: a = 2, b = -7, every exact result in range
    (engine [] [2, -7]).os = [] ++ [BitVec.ofInt 32 2, BitVec.ofInt 32 (-7)] ∧ (BitVec.ofInt 32 2) ≠ 0#32 ∧
    (BitVec.ofInt 32 (-7)).toInt + (BitVec.ofInt 32 2).toInt = -5 ∧ (BitVec.ofInt 32 (-7)).toInt - (BitVec.ofInt 32 2).toInt = -9 ∧
    (BitVec.ofInt 32 (-7)).toInt * (BitVec.ofInt 32 2).toInt = -14 ∧
    Int.tdiv (BitVec.ofInt 32 (-7)).toInt (BitVec.ofInt 32 2).toInt = -3 := by decide
theorem witness_ArithmeticIdentities : State.reset.cfg.ovf = .wrap := by decide
theorem witness_ArithmeticIsAssociative :  -- three cells where the first sum of one order, but not of the other, wraps
    (((nextOf (exec .add (engine [] [-1, 2147483647, 1]))).bind fun t => nextOf (exec .add t)).map seen) =
      some (2, 0, [2147483647], []) ∧
    (((nextOf (exec .add (engine [] [-1, 2147483647]))).bind fun u =>
      nextOf (exec .add { u with os := u.os ++ [1#32] })).map seen) = some (2, 0, [2147483647], []) := by decide
theorem witness_QuotientMagnitudeAndSign :  -- the pair that does not fit, and one that does
    (engine [] [-1, -2147483648]).os = [] ++ [BitVec.ofInt 32 (-1), BitVec.ofInt 32 (-2147483648)] ∧
    (BitVec.ofInt 32 (-2147483648)).toInt = -2 ^ 31 ∧ (BitVec.ofInt 32 (-1)).toInt = -1 ∧ (BitVec.ofInt 32 (-1)) ≠ 0#32 ∧
    (engine [] [2, -7]).os = [] ++ [BitVec.ofInt 32 2, BitVec.ofInt 32 (-7)] ∧ (BitVec.ofInt 32 2).toInt ≠ -1 := by decide
theorem witness_PrintPopsAndEmits : (engine [] [8, -5]).os = [8#32] ++ [BitVec.ofInt 32 (-5)] := by decide
theorem witness_CallSavesAndEnters :
    (∀ n, State.reset.cfg.csCap = some n → State.reset.cs.length + 2 ≤ n) ∧
    (engine [] [] [2, 0, 2, 0] (cfg := { csCap := some 5 })).cfg.csCap = some 5 ∧
    5 < (engine [] [] [2, 0, 2, 0] (cfg := { csCap := some 5 })).cs.length + 2 := by
  refine ⟨fun n h => ?_, by decide, by decide⟩
  cases h
theorem witness_ReturnRestoresTheCaller : (engine [] [] [6, 0]).cs = [] ++ [6, 0] ∧ (engine [] [] [7]).cs.length < 2 := by decide
theorem witness_JumpSetsThePc :  -- a target equal to PLEN, a target above it, a truncated JUMP
    (engine [0x12#8, 0x02#8] []).status = .running ∧ fetch (engine [0x12#8, 0x02#8] []) = .instr (.jump 2) ∧
    2 = (engine [0x12#8, 0x02#8] []).prog.len ∧ fetch (engine [0x12#8, 0x03#8] []) = .instr (.jump 3) ∧
    (engine [0x12#8, 0x03#8] []).prog.len < 3 ∧ (engine [0x12#8, 0x03#8] []).prog.read? 0 = some 0x12#8 ∧
    (engine [0x12#8, 0x03#8] []).prog.read? 1 = some 0x03#8 ∧
    (engine [0x12#8] []).prog.read? 0 = some 0x12#8 ∧ (engine [0x12#8] []).pc + 1 = (engine [0x12#8] []).prog.len := by decide
theorem witness_JumpIfPopsAndTests :
    (engine [] [0]).os = [] ++ [0#32] ∧ (engine [] [-1]).os = [] ++ [BitVec.ofInt 32 (-1)] := by decide
theorem witness_SubThenJumpIfTestsInequality :
    (engine [] [5, 5]).os = [] ++ [5#32, 5#32] ∧ (5#32 : Value).toInt - (5#32 : Value).toInt = 0 ∧
    (engine [] [1, -2147483648]).os = [] ++ [1#32, BitVec.ofInt 32 (-2147483648)] ∧ (engine [] [1, -2147483648]).cfg.ovf = .wrap := by
  decide
theorem witness_StoreLocalOverwritesOneCell :  -- the last cell below the value, and the value's own cell
    (engine [] [3, 9] (fp := 0)).os = [3#32] ++ [9#32] ∧ (engine [] [3, 9] (fp := 0)).fp + 0 < [3#32].length ∧
    [3#32].length ≤ (engine [] [3, 9] (fp := 0)).fp + 1 := by decide
theorem witness_StoreParamOverwritesOneCell :  -- cell 0, a negative address, and an address not below the length after the pop
    (engine [] [6, 7, 9] (fp := 2)).os = [6#32, 7#32] ++ [9#32] ∧ 0 + (1 + 1) = (engine [] [6, 7, 9] (fp := 2)).fp ∧
    0 < [6#32, 7#32].length ∧ (engine [] [6, 7, 9] (fp := 2)).fp < 2 + 1 ∧
    (engine [] [6, 7] (fp := 2)).os = [6#32] ++ [7#32] ∧ [6#32].length + (0 + 1) ≤ (engine [] [6, 7] (fp := 2)).fp := by decide
theorem witness_LoadLocalPushesTheCell :  -- the top cell, the first address past it, a full stack, a truncated LOAD_LOCAL
    (engine [] [3]).os[(engine [] [3]).fp + 0]? = some 3#32 ∧ (engine [] [3]).cfg.osCap ≠ some (engine [] [3]).os.length ∧
    (engine [] [3]).os.length ≤ (engine [] [3]).fp + 1 ∧
    (engine [] [3] (cfg := { osCap := some 1 })).cfg.osCap = some (engine [] [3] (cfg := { osCap := some 1 })).os.length ∧
    (engine [0x21#8, 0xFF#8] []).prog.read? 0 = some 0x21#8 ∧ (engine [0x21#8, 0xFF#8] []).prog.read? 1 = some 0xFF#8 ∧
    (engine [0x21#8] []).prog.read? 0 = some 0x21#8 ∧ (engine [0x21#8] []).pc + 1 = (engine [0x21#8] []).prog.len := by decide
theorem witness_LoadParamPushesTheCell :
    0 + (1 + 1) = (engine [] [6, 7, 0] (fp := 2)).fp ∧ (engine [] [6, 7, 0] (fp := 2)).os[0]? = some 6#32 ∧
    (engine [] [6, 7, 0] (fp := 2)).cfg.osCap ≠ some (engine [] [6, 7, 0] (fp := 2)).os.length ∧
    (engine [] [6, 7, 0] (fp := 2)).fp < 2 + 1 ∧ (engine [] [6] (fp := 2)).os.length + (0 + 1) ≤ (engine [] [6] (fp := 2)).fp ∧
    (engine [] [6, 7] (fp := 2) (cfg := { osCap := some 2 })).cfg.osCap = some 2 ∧
    (engine [] [6, 7] (fp := 2) (cfg := { osCap := some 2 })).os.length = 2 ∧
    (engine [0x23#8, 0xFF#8] []).prog.read? 0 = some 0x23#8 ∧ (engine [0x23#8, 0xFF#8] []).prog.read? 1 = some 0xFF#8 ∧
    (engine [0x23#8] []).prog.read? 0 = some 0x23#8 ∧ (engine [0x23#8] []).pc + 1 = (engine [0x23#8] []).prog.len := by decide
theorem witness_StoreThenLoadLocalReturnsTheValue :  -- V-LP-19, in a build whose stack is full before the store
    (engine [] [1, 2, 77] (cfg := { osCap := some 3 })).status = .running ∧
    (engine [] [1, 2, 77] (cfg := { osCap := some 3 })).os = [1#32, 2#32] ++ [77#32] ∧
    (engine [] [1, 2, 77] (cfg := { osCap := some 3 })).os.length ≤ 3 ∧
    (nextOf (exec (.storeLocal 0) (engine [] [1, 2, 77] (cfg := { osCap := some 3 })))).map (·.status) = some .running := by decide
theorem witness_StoreThenLoadParamReturnsTheValue :
    (engine [] [6, 7, 9] (fp := 2) (cfg := { osCap := some 3 })).status = .running ∧
    (engine [] [6, 7, 9] (fp := 2) (cfg := { osCap := some 3 })).os = [6#32, 7#32] ++ [9#32] ∧
    (engine [] [6, 7, 9] (fp := 2) (cfg := { osCap := some 3 })).os.length ≤ 3 ∧
    (nextOf (exec (.storeParam 1) (engine [] [6, 7, 9] (fp := 2) (cfg := { osCap := some 3 })))).map (·.status) = some .running := by
  decide
theorem witness_FramePointerAboveTheStackTop :  -- V-LP-16 to V-LP-18: index 0 faults, index 1 reaches cell 0
    (engine [] [6] (fp := 2)).os.length < (engine [] [6] (fp := 2)).fp ∧ (engine [] [6] (fp := 2)).os ≠ [] ∧
    0 < (engine [] [6] (fp := 2)).fp - (engine [] [6] (fp := 2)).os.length ∧
    (engine [] [6] (fp := 2)).fp - (engine [] [6] (fp := 2)).os.length ≤ 1 ∧ 1 < (engine [] [6] (fp := 2)).fp ∧
    (engine [] [6] (fp := 2)).cfg.osCap ≠ some (engine [] [6] (fp := 2)).os.length ∧ (engine [] [6] (fp := 2)).fp ≤ 2 := by decide
theorem witness_FramePointerAboveTheStackTop_stores :  -- index 1 is the value's own cell, 2 reaches cell 0, 3 is negative
    (engine [] [6, 9] (fp := 3)).os.length < (engine [] [6, 9] (fp := 3)).fp ∧ (engine [] [6, 9] (fp := 3)).os = [6#32] ++ [9#32] ∧
    1 < (engine [] [6, 9] (fp := 3)).fp - [6#32].length ∧ (engine [] [6, 9] (fp := 3)).fp - [6#32].length ≤ 2 ∧
    2 < (engine [] [6, 9] (fp := 3)).fp ∧ (engine [] [6, 9] (fp := 3)).fp ≤ 3 := by decide
theorem witness_UnderflowExactlyWhenTooFew :
    (engine [] [0]).status = .running ∧ (engine [] [0]).os.length < osNeeded .div ∧ (engine [] [0] [7]).cs.length < csNeeded .ret ∧
    ¬ (engine [] [0]).os.length < osNeeded .print := by decide
theorem witness_UnderflowComesFirstAndReportsItsAddress :
    (engine [] [0]).os.length < 2 ∧ (engine [] []).os = [] ∧ (engine [] [] [7]).cs.length < 2 := by decide
theorem witness_OutOfBoundsExactlyWhenTheAddressIsInvalid : (engine [] [5]).status = .running ∧ (engine [] [5]).os ≠ [] := by decide
theorem witness_ReportedProgramCounter :  -- one instance of each line of R168's table that an instruction raises
    nextOf (exec .ret (engine [] [])) = some ((engine [] []).asFaulted .stackUnderflow 1) ∧
    nextOf (exec (.storeParam 0) (engine [] [])) = some ((engine [] []).asFaulted .stackUnderflow 2) ∧
    nextOf (exec .div (engine [] [0, 0])) = some ((engine [] [0, 0]).asFaulted .divisionByZero 1) ∧
    nextOf (exec (.loadParam 0) (engine [] [5])) = some ((engine [] [5]).asFaulted .outOfBoundsAccess 2) ∧
    nextOf (exec (.push 3) (engine [] [1] (cfg := { osCap := some 1 }))) =
      some ((engine [] [1] (cfg := { osCap := some 1 })).asFaulted .stackOverflow 2) := by decide
theorem witness_FaultsArePrecise :
    (engine [] [0, 4]).status = .running ∧ (nextOf (exec .div (engine [] [0, 4]))).map (·.status) = some .faulted := by decide
theorem witness_OnlyFaultEntryWritesTheReport :
    (nextOf (exec .halt (engine [] []))).map (·.status) = some .halted ∧
    (nextOf (exec .add (engine [] [1, 2]))).map (·.status) = some .running := by decide
theorem witness_StackOverflowOnlyWhenFull :
    nextOf (exec (.call 9) (engine [] [] [2, 0] (cfg := { csCap := some 3 }))) =
      some ((engine [] [] [2, 0] (cfg := { csCap := some 3 })).asFaulted .stackOverflow 2) ∧
    nextOf (exec (.loadLocal 0) (engine [] [7] (cfg := { osCap := some 1 }))) =
      some ((engine [] [7] (cfg := { osCap := some 1 })).asFaulted .stackOverflow 2) := by decide
theorem witness_UnboundedStacksNeverOverflow :
    ({} : Config).osCap = none ∧ ({} : Config).csCap = none ∧
    StepsAbove 0 (State.construct {} Memory.empty) (State.construct {} Memory.empty).halt :=
  ⟨rfl, rfl, .tail (.refl (Nat.zero_le _)) rfl (Nat.zero_le _)⟩
theorem witness_OnlyCallAndReturnTouchTheFrame : (nextOf (exec (.storeLocal 0) (engine [] [1, 2] [6, 0]))).isSome = true := by decide
theorem witness_OnlyPrintEmits : (nextOf (exec .print (engine [] [8, -5]))).map (·.out.length) = some 1 := by decide
theorem witness_ProgramMemoryIsNeverWritten :
    (nextOf (exec (.storeLocal 0) (engine [0x20#8, 0x00#8] [1, 2]))).isSome = true ∧
    (stepped (engine [0x20#8, 0x00#8] [1, 2])).isSome = true := by decide
theorem witness_CellsBelowTheOperandsAreKept :  -- V-ALU-28, and a store that overwrites another cell than k
    (nextOf (exec .add (engine [] [11, 22, 33]))).isSome = true ∧ 0 + osNeeded .add < (engine [] [11, 22, 33]).os.length ∧
    (nextOf (exec (.storeLocal 1) (engine [] [3, 4, 9]))).isSome = true ∧
    0 + osNeeded (.storeLocal 1) < (engine [] [3, 4, 9]).os.length ∧ 0 ≠ (engine [] [3, 4, 9]).fp + 1 := by decide
theorem witness_StepKeepsTheInvariant :  -- inside a frame, in a finite build
    Inv (engine [0x11#8] [6, 7] [1, 0] (fp := 2) (cfg := { osCap := some 2, csCap := some 2 })) ∧
    (stepped (engine [0x11#8] [6, 7] [1, 0] (fp := 2) (cfg := { osCap := some 2, csCap := some 2 }))).isSome = true := by
  refine ⟨⟨by decide, by decide, by decide, by decide, by decide, ?_, ?_, by decide, by decide, by decide⟩, by decide⟩
  · intro n h; cases h; decide
  · intro n h; cases h; decide
theorem witness_NoNumberOutgrowsItsWidth :  -- OS_CAP = 0, the smallest width its bound admits
    Inv (engine [0xFF#8] [] (cfg := { osCap := some 0, uw := some 8 })) ∧
    (engine [0xFF#8] [] (cfg := { osCap := some 0, uw := some 8 })).cfg.uw = some 8 ∧
    (engine [0xFF#8] [] (cfg := { osCap := some 0, uw := some 8 })).cfg.uwAdmissible
      (engine [0xFF#8] [] (cfg := { osCap := some 0, uw := some 8 })).prog.len = true := by
  refine ⟨⟨by decide, by decide, by decide, by decide, by decide, ?_, ?_, by decide, by decide, by decide⟩, by decide, by decide⟩
  · intro n h; cases h; decide
  · intro n h; cases h
theorem witness_RunIsIteratedStep :
    (run 1 (engine [0xFF#8] [])).status ≠ .running ∧ (run 1 (engine [0x12#8, 0x00#8] [])).status = .running := by decide
theorem witness_ResetLeavesTheSpecState : (engine [0x99#8] [1] [2, 3] (fp := 4)).hostReset = engine [0x99#8] [] := by decide

theorem witness_StepKeepsTheLowestCallStackEntries :  -- a RETURN out of the inner of two frames, which keeps the outer pair
    stepped (engine [0x11#8] [] [2, 0, 0, 0]) = some (engine [0x11#8] [] [2, 0]) ∧
    2 ≤ (engine [0x11#8] [] [2, 0, 0, 0]).cs.length ∧ 2 ≤ (engine [0x11#8] [] [2, 0]).cs.length := by decide

/-- A state of V-CAL-8's trace: nested calls over `os = [1, 2]`. -/
def nestedCalls (pc fp : Nat) (cs : List Nat) : State :=
  { engine [0x10#8, 0x03#8, 0xFF#8, 0x10#8, 0x06#8, 0x11#8, 0x11#8] [1, 2] cs (fp := fp) with pc := pc }

/-- V-CAL-8: the CALL at 0, a whole CALL and RETURN inside the callee, then the outer RETURN at 5. -/
theorem witness_MatchingReturnRestoresTheCaller :
    ∃ s t u : State, s.status = .running ∧ fetch s = .instr (.call 3) ∧ step s = .next t ∧ t.status = .running ∧
      StepsAbove t.cs.length t u ∧ u.cs.length = t.cs.length ∧ u.status = .running ∧ fetch u = .instr .ret ∧ u ≠ t := by
  have inner : StepsAbove 2 (nestedCalls 3 2 [2, 0]) (nestedCalls 6 2 [2, 0, 5, 2]) := .tail (.refl (by decide)) rfl (by decide)
  exact ⟨nestedCalls 0 0 [], nestedCalls 3 2 [2, 0], nestedCalls 5 2 [2, 0], by decide, by decide, rfl, by decide,
    .tail inner rfl (by decide), by decide, by decide, by decide, by decide⟩

end Sys2Proof.Tests
end

section
/-! SUPPORT. The decoder by its first byte (spec/30_encoding.md R61 to R66): what an opcode byte, with or without an operand
byte, decodes to, which bytes are no opcode, and the step that meets such a byte (spec/60_exceptions.md R162). -/

namespace Sys2Proof

open Sys2Proof.Machine

/-! ### The bytes that are an opcode, and the others -/

/-- After an opcode byte the opcode alone decides how decoding goes on (R64, R65). -/
theorem decode_opcode_byte (op : Opcode) (rest : List Byte) : decode (op.byte :: rest) = decodeOperand op rest := by
  simp [decode]

/-- The map has no row for exactly the bytes of R66. -/
theorem opcodeOfByte_eq_none_iff (b : Byte) : opcodeOfByte b = none ↔ IllegalByte b := by
  have key : ∀ b : Byte, opcodeOfByte b = none ↔ IllegalByte b := by decide
  exact key b

/-- There are 241 bytes the map has no row for (R66), counted in four quarters: a `decide` over all 256 at once recurses too
deep. -/
theorem length_bytes_without_row :
    ((List.range 256).filter (fun n => (opcodeOfByte (BitVec.ofNat 8 n)).isNone)).length = 241 := by
  rw [show 256 = 64 + 64 + 64 + 64 from rfl]
  simp only [List.range_add, List.filter_append, List.length_append]
  decide

theorem decode_eq_unknownOpcode_iff_illegalByte (b : Byte) (rest : List Byte) :
    decode (b :: rest) = .unknownOpcode b ↔ IllegalByte b :=
  decode_eq_unknownOpcode.trans (opcodeOfByte_eq_none_iff b)

/-- A byte that is the byte of no opcode is rejected by name (R66). -/
theorem decode_of_forall_ne_byte {b : Byte} (h : ∀ op : Opcode, b ≠ op.byte) (rest : List Byte) :
    decode (b :: rest) = .unknownOpcode b :=
  decode_eq_unknownOpcode.2 (Option.eq_none_iff_forall_ne_some.2 fun op hop => h op (byte_of_opcodeOfByte hop))

/-- The number of an `imm8` by the value of its byte (R63). -/
theorem signedOfByte_eq_ite (b : Byte) :
    signedOfByte b = if b.toNat < 128 then (b.toNat : Int) else (b.toNat : Int) - 256 := by
  rw [signedOfByte_eq, BitVec.toInt_eq_toNat_cond]
  split_ifs <;> omega

/-! ### The two formats -/

/-- The opcodes of format I: one operand byte follows (R62). -/
def operandOpcodes : List Opcode := [.push, .call, .jump, .jumpIf, .storeLocal, .loadLocal, .storeParam, .loadParam]

/-- The opcodes of format N: no byte follows (R61). -/
def plainOpcodes : List Opcode := [.add, .sub, .mul, .div, .print, .ret, .halt]

theorem operandOpcodes_map_byte :
    operandOpcodes.map Opcode.byte = [0x01#8, 0x10#8, 0x12#8, 0x13#8, 0x20#8, 0x21#8, 0x22#8, 0x23#8] := rfl

theorem plainOpcodes_map_byte :
    plainOpcodes.map Opcode.byte = [0x02#8, 0x03#8, 0x04#8, 0x05#8, 0x06#8, 0x11#8, 0xFF#8] := rfl

/-- Format I decodes from two bytes, whatever the second is, and drops no bit of it (R62). -/
theorem decode_operandOpcode {op : Opcode} (h : op ∈ operandOpcodes) (v : Byte) (rest : List Byte) :
    ∃ i, decode (op.byte :: v :: rest) = .instr i rest ∧ encode i = [op.byte, v] := by
  rw [decode_opcode_byte]
  fin_cases h
  · exact ⟨_, rfl, congrArg (fun b => [0x01#8, b]) (byteOfInt_signedOfByte v)⟩
  all_goals exact ⟨_, rfl, congrArg (fun b => [_, b]) (byteOfNat_unsignedOfByte v)⟩

/-- Format I with no byte after the opcode is rejected as truncated (R68). -/
theorem decode_operandOpcode_alone {op : Opcode} (h : op ∈ operandOpcodes) : decode [op.byte] = .truncated op := by
  rw [decode_opcode_byte]
  fin_cases h <;> rfl

/-- Format N decodes from its opcode byte alone (R61). -/
theorem decode_plainOpcode {op : Opcode} (h : op ∈ plainOpcodes) (rest : List Byte) :
    ∃ i, decode (op.byte :: rest) = .instr i rest ∧ encode i = [op.byte] := by
  rw [decode_opcode_byte]
  fin_cases h <;> exact ⟨_, rfl, rfl⟩

theorem encode_length (i : Instr) : (encode i).length = 1 ∨ (encode i).length = 2 := by
  cases i <;> simp [encode]

/-! ### A step that meets a byte that is no opcode -/

theorem fetch_of_illegalByte {s : State} {b : Byte} (hb : s.prog.read? s.pc = some b) (hi : IllegalByte b) :
    fetch s = .unknownOpcode := by
  have hd : decode (s.prog.window s.pc) = .unknownOpcode b := by
    rw [Memory.window_cons hb]
    exact (decode_eq_unknownOpcode_iff_illegalByte b _).2 hi
  rcases fetch_of_lt (Memory.read?_lt hb) with ⟨i, rest, hd', _⟩ | ⟨_, _, hf⟩ | ⟨op, hd', _⟩
  · cases hd.symm.trans hd'
  · exact hf
  · cases hd.symm.trans hd'

/-- The fault is reported at the byte's own address, before the `pc` advance (R84, R162). -/
theorem step_of_illegalByte {s : State} {b : Byte} (hr : s.status = .running) (hb : s.prog.read? s.pc = some b)
    (hi : IllegalByte b) : step s = .next (s.asFaulted .unknownOpcode s.pc) := by
  rw [step_running hr, fetch_of_illegalByte hb hi]
  rfl

/-! ### The obligations of spec/30_encoding.md on the first byte -/

/-- Settles O4: the decoder rejects the bytes the map has no row for, and `step_of_illegalByte`. -/
theorem illegalByteFaultsAtItsAddress : Obligations.IllegalByteFaultsAtItsAddress := by
  refine ⟨decode_eq_unknownOpcode_iff_illegalByte, length_bytes_without_row,
    fun s b hr hb hi => ⟨step_of_illegalByte hr hb hi, fun t ht => ?_⟩⟩
  rw [step_of_illegalByte hr hb hi] at ht
  cases ht
  exact hb

/-- Settles O5: each listed byte is the byte of an opcode of the one or the other format. -/
theorem firstByteDecidesLength : Obligations.FirstByteDecidesLength := by
  unfold Obligations.FirstByteDecidesLength
  rw [← operandOpcodes_map_byte, ← plainOpcodes_map_byte, List.forall_mem_map, List.forall_mem_map]
  refine ⟨fun op hop => ⟨decode_operandOpcode hop, fun i rest => ?_⟩, fun op hop => decode_plainOpcode hop,
    fun b hb tail i rest => ?_, encode_length⟩
  · simp [decode_operandOpcode_alone hop]
  · simp [(decode_eq_unknownOpcode_iff_illegalByte b tail).2 hb]

/-- Settles O3: a row of the map is `decode_opcode_byte` at its opcode; a byte of no row is the byte of no opcode. -/
theorem opcodeMapDecodes : Obligations.OpcodeMapDecodes := by
  intro v rest
  rw [← signedOfByte_eq_ite]
  refine ⟨decode_opcode_byte .push _, decode_opcode_byte .add _, decode_opcode_byte .sub _, decode_opcode_byte .mul _,
    decode_opcode_byte .div _, decode_opcode_byte .print _, decode_opcode_byte .call _, decode_opcode_byte .ret _,
    decode_opcode_byte .jump _, decode_opcode_byte .jumpIf _, decode_opcode_byte .storeLocal _,
    decode_opcode_byte .loadLocal _, decode_opcode_byte .storeParam _, decode_opcode_byte .loadParam _,
    decode_opcode_byte .halt _, fun b hb => decode_of_forall_ne_byte ?_ rest⟩
  rintro op rfl
  exact hb (by cases op <;> simp [Opcode.byte])

end Sys2Proof
end

section
/-! SUPPORT. The operand stack unit (spec/41_operand_stack.md R100 to R105): what PUSH and the four arithmetic instructions
do when they complete, and the step that meets a two-byte opcode with and without its operand byte (R62, R68, R86). -/

namespace Sys2Proof

open Sys2Proof.Machine

/-! ### A step that meets a two-byte opcode -/

/-- With its operand byte, a two-byte opcode runs the instruction the two bytes decode to (R62, R87). -/
theorem step_of_operandOpcode {s : State} {op : Opcode} {v : Byte} {i : Instr} (hr : s.status = .running)
    (hop : s.prog.read? s.pc = some op.byte) (hv : s.prog.read? (s.pc + 1) = some v)
    (hi : decodeOperand op [v] = .instr i []) : step s = exec i s := by
  have hd : decode (s.prog.window s.pc) = .instr i [] := by
    rw [Memory.window_cons hop, hv, decode_opcode_byte]
    exact hi
  rw [step_running hr, fetch_eq_instr.2 ⟨Memory.read?_lt hop, [], hd⟩]

/-- In the last byte of the program a two-byte opcode is truncated (R68). -/
theorem fetch_of_operandOpcode_last {s : State} {op : Opcode} (h : op ∈ operandOpcodes)
    (hop : s.prog.read? s.pc = some op.byte) (hl : s.pc + 1 = s.prog.len) : fetch s = .truncated op := by
  have hd : decode (s.prog.window s.pc) = .truncated op := by
    rw [Memory.window_cons hop, Memory.read?_eq_none.2 hl.ge]
    exact decode_operandOpcode_alone h
  rcases fetch_of_lt (Memory.read?_lt hop) with ⟨i, rest, hd', _⟩ | ⟨b, hd', _⟩ | ⟨op', hd', hf⟩
  · cases hd.symm.trans hd'
  · cases hd.symm.trans hd'
  · cases hd.symm.trans hd'
    exact hf

/-- The missing operand byte faults at its own address, whatever the stacks hold; JUMP_IF checks its condition first
(R86, R131). -/
theorem step_of_operandOpcode_last {s : State} {op : Opcode} (hr : s.status = .running) (h : op ∈ operandOpcodes)
    (hj : op ≠ .jumpIf) (hop : s.prog.read? s.pc = some op.byte) (hl : s.pc + 1 = s.prog.len) :
    step s = .next (s.asFaulted .programCounterOutOfRange (s.pc + 1)) := by
  rw [step_running hr, fetch_of_operandOpcode_last h hop hl]
  exact if_neg fun hc => hj hc.1

/-! ### PUSH -/

theorem exec_push_of_not_full {s : State} {imm : Int} {v : Value} (hcap : s.cfg.osCap ≠ some s.os.length)
    (hv : v.toInt = imm) : exec (.push imm) s = .next { s with pc := s.pc + 2, os := s.os ++ [v] } := by
  have hw : wrap32 imm = v := by rw [wrap32, ← hv, BitVec.ofInt_toInt]
  rw [exec, execPush, hw]
  exact pushValue_of_not_full (s := s.afterOpcode.afterOperand) hcap

theorem exec_push_of_full {s : State} (imm : Int) (hcap : s.cfg.osCap = some s.os.length) :
    exec (.push imm) s = .next (s.asFaulted .stackOverflow (s.pc + 2)) :=
  pushValue_of_full hcap

/-- A byte and its sign extension to 32 bits are the same number (R10 `sext_32`). -/
theorem signExtend_toInt_eq_signedOfByte (b : Byte) : (b.signExtend 32).toInt = signedOfByte b := by
  rw [signedOfByte_eq, BitVec.toInt_signExtend_of_le (by decide)]

/-! ### ADD, SUB, MUL, DIV -/

/-- Under every overflow rule an exact result that fits 32 bits is the result (R6 `OVF`). -/
theorem narrow_toInt_of_fits (ovf : OverflowRule) {z : Int} (h1 : -2 ^ 31 ≤ z) (h2 : z < 2 ^ 31) :
    (narrow ovf z).toInt = z := by
  cases ovf with
  | wrap => exact wrap32_toInt_of_fits h1 h2

section
variable {s : State} {rest : List Value} {second top : Value} (h : s.os = rest ++ [second, top])
include h

theorem exec_add_of_two :
    exec .add s = .next { s with pc := s.pc + 1, os := rest ++ [addValue s.cfg.ovf top second] } :=
  arith_of_two (s := s.afterOpcode) h

theorem exec_sub_of_two :
    exec .sub s = .next { s with pc := s.pc + 1, os := rest ++ [subValue s.cfg.ovf top second] } :=
  arith_of_two (s := s.afterOpcode) h

theorem exec_mul_of_two :
    exec .mul s = .next { s with pc := s.pc + 1, os := rest ++ [mulValue s.cfg.ovf top second] } :=
  arith_of_two (s := s.afterOpcode) h

theorem exec_div_of_two (h0 : second ≠ 0#32) :
    exec .div s = .next { s with pc := s.pc + 1, os := rest ++ [divValue s.cfg.ovf top second] } := by
  rw [exec, execDiv, h, pop2?_append]
  exact if_neg h0

end

/-- A truncated quotient is no larger in magnitude than its dividend, so it never falls below the signed range. -/
theorem neg_two_pow_le_tdiv_toInt (top second : Value) : -2 ^ 31 ≤ Int.tdiv top.toInt second.toInt := by
  have hq : (Int.tdiv top.toInt second.toInt).natAbs ≤ top.toInt.natAbs := by
    rw [Int.natAbs_tdiv]
    exact Nat.div_le_self _ _
  have hlo := top.le_toInt
  have hhi := top.toInt_lt
  omega

theorem divValue_toInt_of_fits (ovf : OverflowRule) {top second : Value}
    (h : Int.tdiv top.toInt second.toInt < 2 ^ 31) :
    (divValue ovf top second).toInt = Int.tdiv top.toInt second.toInt := by
  rw [divValue, tdiv_eq, narrow_toInt_of_fits ovf (neg_two_pow_le_tdiv_toInt top second) h]

/-! ### The obligations of spec/41_operand_stack.md on PUSH and the operand order -/

/-- Settles O17: the operand byte's number is the number of its sign extension, and a full stack or a missing operand byte
is the other branch of the push or of the fetch. -/
theorem pushPushesTheSignExtendedByte : Obligations.PushPushesTheSignExtendedByte := by
  refine ⟨fun s imm v hcap hv => exec_push_of_not_full hcap hv, fun s imm hcap => exec_push_of_full imm hcap,
    fun s b hr hop hb hcap => ?_, fun s hr hop hl => ?_⟩
  · rw [step_of_operandOpcode (op := .push) hr hop hb rfl]
    exact exec_push_of_not_full hcap (signExtend_toInt_eq_signedOfByte b)
  · exact step_of_operandOpcode_last (op := .push) hr (by decide) (by decide) hop hl

/-- Settles O23: each result is the narrowed exact result, with `top` on the left. -/
theorem topIsTheLeftOperand : Obligations.TopIsTheLeftOperand := by
  intro s rest second top h
  exact ⟨⟨_, exec_add_of_two h, narrow_toInt_of_fits _⟩, ⟨_, exec_sub_of_two h, narrow_toInt_of_fits _⟩,
    ⟨_, exec_mul_of_two h, narrow_toInt_of_fits _⟩, fun h0 => ⟨_, exec_div_of_two h h0, divValue_toInt_of_fits _⟩⟩

end Sys2Proof
end

section
/-! SUPPORT. The control-flow unit (spec/43_control_flow.md R130): what JUMP does, and the step at a program counter outside
the program, where a jump's target is first checked (spec/40_dispatch.md R82, R83). -/

namespace Sys2Proof

open Sys2Proof.Machine

/-! ### A step outside the program -/

theorem step_of_pc_eq_len {s : State} (hr : s.status = .running) (h : s.pc = s.prog.len) :
    step s = .next { s with status := .halted } := by
  rw [step_running hr, fetch_endOfProgram h]
  rfl

theorem step_of_len_lt_pc {s : State} (hr : s.status = .running) (h : s.prog.len < s.pc) :
    step s = .next (s.asFaulted .programCounterOutOfRange s.pc) := by
  rw [step_running hr, fetch_beyondEnd h]
  rfl

/-! ### JUMP -/

theorem exec_jump (target : Nat) (s : State) : exec (.jump target) s = .next { s with pc := target } := rfl

/-! ### The obligation of spec/43_control_flow.md on JUMP -/

/-- Settles O30: JUMP itself checks nothing, so a target outside the program shows in the step after it, and a missing operand
byte in the fetch before it. -/
theorem jumpSetsThePc : Obligations.JumpSetsThePc := by
  refine ⟨fun s target => exec_jump target s, fun s b hr hop hb => ?_, fun s target hr hf => ?_, fun s hr hop hl => ?_⟩
  · exact step_of_operandOpcode (op := .jump) hr hop hb rfl
  · have hstep : step s = .next { s with pc := target } := by
      rw [step_running hr, hf]
      exact exec_jump target s
    refine ⟨_, hstep, rfl, fun hend => ?_, fun hbeyond => ?_⟩
    · exact step_of_pc_eq_len (s := { s with pc := target }) hr hend
    · exact step_of_len_lt_pc (s := { s with pc := target }) hr hbeyond
  · exact step_of_operandOpcode_last (op := .jump) hr (by decide) (by decide) hop hl

end Sys2Proof
end

section
/-! SUPPORT. The local and parameter accessor (spec/44_local_param.md R140, R142, R144): the cells the two addressing modes
name, and what a load at an address does when it completes, when the address is invalid, and when the stack is full. -/

namespace Sys2Proof

open Sys2Proof.Machine

/-! ### The two addressing modes (R140) -/

theorem localAddr_eq_natCast (fp idx : Nat) : localAddr fp idx = ((fp + idx : Nat) : Int) :=
  (Int.natCast_add fp idx).symm

theorem paramAddr_eq_natCast {fp idx k : Nat} (h : k + (idx + 1) = fp) : paramAddr fp idx = (k : Int) := by
  rw [paramAddr]
  omega

/-- A parameter address is invalid below cell 0 and from cell `n` up, and nothing wraps around. -/
theorem paramAddr_invalid_iff {fp idx n : Nat} :
    (paramAddr fp idx < 0 ∨ (n : Int) ≤ paramAddr fp idx) ↔ fp < idx + 1 ∨ n + (idx + 1) ≤ fp := by
  rw [paramAddr]
  omega

/-! ### A load at an address, once its operand byte is consumed -/

section
variable {s : State} {addr : Int}

theorem load_of_not_full {k : Nat} {v : Value} (ha : addr = (k : Int)) (hv : s.os[k]? = some v)
    (hcap : s.cfg.osCap ≠ some s.os.length) :
    loadSlot addr s.afterOpcode.afterOperand = .next { s with pc := s.pc + 2, os := s.os ++ [v] } :=
  (loadSlot_of_valid (s := s.afterOpcode.afterOperand) ha hv).trans (pushValue_of_not_full hcap)

/-- The bounds are checked before the capacity: an invalid address faults in a full stack too. -/
theorem load_of_invalid (ha : addr < 0 ∨ (s.os.length : Int) ≤ addr) :
    loadSlot addr s.afterOpcode.afterOperand = .next (s.asFaulted .outOfBoundsAccess (s.pc + 2)) :=
  loadSlot_of_invalid (s := s.afterOpcode.afterOperand) ha

theorem load_of_full {k : Nat} (ha : addr = (k : Int)) (hk : k < s.os.length) (hcap : s.cfg.osCap = some s.os.length) :
    loadSlot addr s.afterOpcode.afterOperand = .next (s.asFaulted .stackOverflow (s.pc + 2)) :=
  (loadSlot_of_valid (s := s.afterOpcode.afterOperand) ha (List.getElem?_eq_getElem hk)).trans (pushValue_of_full hcap)

end

/-! ### LOAD_LOCAL and LOAD_PARAM -/

theorem exec_loadLocal (idx : Nat) (s : State) :
    exec (.loadLocal idx) s = loadSlot ((s.fp + idx : Nat) : Int) s.afterOpcode.afterOperand := by
  rw [exec, execLoadLocal, localAddr_eq_natCast]

theorem exec_loadParam (idx : Nat) (s : State) :
    exec (.loadParam idx) s = loadSlot (paramAddr s.fp idx) s.afterOpcode.afterOperand := rfl

/-! ### The obligations of spec/44_local_param.md on the loads -/

/-- Settles O36: a local address is the number of a cell or lies above the stack; the operand byte is the fetch's. -/
theorem loadLocalPushesTheCell : Obligations.LoadLocalPushesTheCell := by
  refine ⟨fun s idx v hv hcap => ?_, fun s idx hhigh => ?_, fun s idx hlt hcap => ?_, fun s b hr hop hb => ?_,
    fun s hr hop hl => ?_⟩
  · rw [exec_loadLocal, load_of_not_full rfl hv hcap]
  · rw [exec_loadLocal, load_of_invalid (.inr (Int.ofNat_le.2 hhigh))]
  · rw [exec_loadLocal, load_of_full rfl hlt hcap]
  · exact step_of_operandOpcode (op := .loadLocal) hr hop hb rfl
  · exact step_of_operandOpcode_last (op := .loadLocal) hr (by decide) (by decide) hop hl

/-- Settles O37: a parameter address is the number of a cell, or negative, or above the stack (`paramAddr_invalid_iff`); the
operand byte is the fetch's. -/
theorem loadParamPushesTheCell : Obligations.LoadParamPushesTheCell := by
  refine ⟨fun s idx k v hk hv hcap => ?_, fun s idx hinvalid => ?_, fun s idx k hk hlt hcap => ?_,
    fun s b hr hop hb => ?_, fun s hr hop hl => ?_⟩
  · rw [exec_loadParam, load_of_not_full (paramAddr_eq_natCast hk) hv hcap]
  · rw [exec_loadParam, load_of_invalid (paramAddr_invalid_iff.2 hinvalid)]
  · rw [exec_loadParam, load_of_full (paramAddr_eq_natCast hk) hlt hcap]
  · exact step_of_operandOpcode (op := .loadParam) hr hop hb rfl
  · exact step_of_operandOpcode_last (op := .loadParam) hr (by decide) (by decide) hop hl

end Sys2Proof
end

section
/-! SUPPORT. Two exceptions of spec/60_exceptions.md: what each instruction answers when a stack holds too few (R163), with
the program counter it reports (R168), and DIV's zero divisor and zero dividend (R165). -/

namespace Sys2Proof

open Sys2Proof.Machine

section
variable {s : State}

/-! ### StackUnderflow, instruction by instruction -/

theorem arith_of_lt_two (f : Value → Value → Value) (h : s.os.length < 2) :
    arith f s.afterOpcode = .next (s.asFaulted .stackUnderflow (s.pc + 1)) := by
  rw [arith, State.afterOpcode_os, pop2?_eq_none.2 h]
  rfl

theorem exec_div_of_lt_two (h : s.os.length < 2) :
    exec .div s = .next (s.asFaulted .stackUnderflow (s.pc + 1)) := by
  rw [exec, execDiv, pop2?_eq_none.2 h]
  rfl

theorem exec_print_of_nil (h : s.os = []) : exec .print s = .next (s.asFaulted .stackUnderflow (s.pc + 1)) := by
  rw [exec, execPrint, pop?_eq_none.2 h]
  rfl

theorem exec_jumpIf_of_nil (target : Nat) (h : s.os = []) :
    exec (.jumpIf target) s = .next (s.asFaulted .stackUnderflow (s.pc + 1)) := by
  rw [exec, execJumpIf, pop?_eq_none.2 h]
  rfl

/-- A store consumes its operand byte before it checks the stack, and checks the stack before the address. -/
theorem store_of_nil (addr : Int) (h : s.os = []) :
    storeSlot addr s.afterOpcode.afterOperand = .next (s.asFaulted .stackUnderflow (s.pc + 2)) := by
  rw [storeSlot, State.afterOperand_os, State.afterOpcode_os, pop?_eq_none.2 h]
  rfl

theorem exec_ret_of_lt_two (h : s.cs.length < 2) :
    exec .ret s = .next (s.asFaulted .stackUnderflow (s.pc + 1)) := by
  rw [exec, execRet, pop2?_eq_none.2 h]
  rfl

/-! ### StackUnderflow, for every instruction -/

/-- Too few cells or entries is an underflow: the instructions that need any are the ones above. -/
theorem exec_of_too_few {i : Instr} (h : s.os.length < osNeeded i ∨ s.cs.length < csNeeded i) :
    ∃ p, exec i s = .next (s.asFaulted .stackUnderflow p) := by
  have nil_of_lt_one : s.os.length < 1 → s.os = [] := fun h => List.length_eq_zero_iff.1 (Nat.lt_one_iff.1 h)
  rcases h with hos | hcs
  · cases i with
    | add | sub | mul => exact ⟨_, arith_of_lt_two _ hos⟩
    | div => exact ⟨_, exec_div_of_lt_two hos⟩
    | print => exact ⟨_, exec_print_of_nil (nil_of_lt_one hos)⟩
    | jumpIf target => exact ⟨_, exec_jumpIf_of_nil target (nil_of_lt_one hos)⟩
    | storeLocal idx | storeParam idx => exact ⟨_, store_of_nil _ (nil_of_lt_one hos)⟩
    | _ => exact absurd hos (Nat.not_lt_zero _)
  · cases i with
    | ret => exact ⟨_, exec_ret_of_lt_two hcs⟩
    | _ => exact absurd hcs (Nat.not_lt_zero _)

/-- An underflow means too few cells or entries: the other faults report another kind, and a completion leaves a running
engine running or halted. -/
theorem too_few_of_outcome {i : Instr} {t : State} (ho : ExecOutcome i s t) (hr : s.status = .running)
    (hf : t.status = .faulted) (hk : t.faultKind = .stackUnderflow) :
    s.os.length < osNeeded i ∨ s.cs.length < csNeeded i := by
  cases ho with
  | underflow p h _ => exact h
  | zeroDivisor | outOfBounds | osOverflow | csOverflow => cases hk
  | halted => cases hf
  | _ => cases hr.symm.trans hf

/-! ### The zero divisor and the zero dividend of DIV -/

theorem exec_div_of_zero_divisor {rest : List Value} {top : Value} (h : s.os = rest ++ [0#32, top]) :
    exec .div s = .next (s.asFaulted .divisionByZero (s.pc + 1)) := by
  rw [exec, execDiv, h, pop2?_append]
  exact if_pos rfl

end

theorem divValue_zero_dividend (ovf : OverflowRule) (second : Value) : divValue ovf 0#32 second = 0#32 := by
  cases ovf with
  | wrap => rw [divValue, tdiv_eq, BitVec.toInt_zero, Int.zero_tdiv]; rfl

/-! ### The obligations of spec/60_exceptions.md on StackUnderflow and DivisionByZero -/

/-- Settles O22: DIV checks the count, then the divisor; a zero dividend is an ordinary division whose quotient is 0. -/
theorem zeroDivisorFaultsZeroDividendDoesNot : Obligations.ZeroDivisorFaultsZeroDividendDoesNot := by
  refine ⟨fun s rest top h => ⟨_, exec_div_of_zero_divisor h⟩, fun s h => ⟨_, exec_div_of_lt_two h⟩,
    fun s rest second h h0 => ?_⟩
  rw [exec_div_of_two h h0, divValue_zero_dividend]

/-- Settles O41: each instruction that needs cells or entries underflows without them, and no other outcome of an
instruction is an underflow. -/
theorem underflowExactlyWhenTooFew : Obligations.UnderflowExactlyWhenTooFew := by
  intro i s hr
  exact ⟨exec_of_too_few, fun ⟨_, h⟩ => too_few_of_outcome (exec_outcome h) hr rfl rfl⟩

end Sys2Proof
end

section
/-! SUPPORT. The ends of a run (spec/70_reset_and_hazards.md R197): every instruction and every step of a running engine has a
next state, which is Halted at the end of the program or by HALT, and Faulted by fault entry alone. -/

namespace Sys2Proof

open Sys2Proof.Machine

/-! ### A next state, for every instruction and every step of a running engine -/

theorem exists_pushValue_eq_next (v : Value) (s : State) : ∃ t, pushValue v s = .next t := by
  unfold pushValue
  split <;> exact ⟨_, rfl⟩

theorem exists_arith_eq_next (f : Value → Value → Value) (s : State) : ∃ t, arith f s = .next t := by
  unfold arith
  split <;> exact ⟨_, rfl⟩

theorem exists_loadSlot_eq_next (addr : Int) (s : State) : ∃ t, loadSlot addr s = .next t := by
  unfold loadSlot
  split
  · exact ⟨_, rfl⟩
  · exact exists_pushValue_eq_next _ s

theorem exists_storeSlot_eq_next (addr : Int) (s : State) : ∃ t, storeSlot addr s = .next t := by
  unfold storeSlot
  split
  · exact ⟨_, rfl⟩
  · split <;> exact ⟨_, rfl⟩

theorem exists_exec_eq_next (i : Instr) (s : State) : ∃ t, exec i s = .next t := by
  cases i with
  | push imm => exact exists_pushValue_eq_next _ _
  | add | sub | mul => exact exists_arith_eq_next _ _
  | loadLocal idx | loadParam idx => exact exists_loadSlot_eq_next _ _
  | storeLocal idx | storeParam idx => exact exists_storeSlot_eq_next _ _
  | jump target | halt => exact ⟨_, rfl⟩
  | div =>
    simp only [exec, execDiv]
    split
    · exact ⟨_, rfl⟩
    · split <;> exact ⟨_, rfl⟩
  | print =>
    simp only [exec, execPrint]
    split <;> exact ⟨_, rfl⟩
  | call target =>
    simp only [exec, execCall]
    split <;> exact ⟨_, rfl⟩
  | ret =>
    simp only [exec, execRet]
    split <;> exact ⟨_, rfl⟩
  | jumpIf target =>
    simp only [exec, execJumpIf]
    split
    · exact ⟨_, rfl⟩
    · split <;> exact ⟨_, rfl⟩

theorem exists_faultTruncated_eq_next (op : Opcode) (s : State) : ∃ t, faultTruncated op s = .next t := by
  unfold faultTruncated
  split <;> exact ⟨_, rfl⟩

theorem exists_step_eq_next_iff {s : State} : (∃ t, step s = .next t) ↔ s.status = .running := by
  refine ⟨fun ⟨_, h⟩ => running_of_step h, fun hr => ?_⟩
  rw [step_running hr]
  cases fetch s with
  | endOfProgram | beyondEnd | unknownOpcode => exact ⟨_, rfl⟩
  | truncated op => exact exists_faultTruncated_eq_next op s
  | instr i => exact exists_exec_eq_next i s

/-! ### The byte of HALT -/

theorem decodeOperand_eq_halt {op : Opcode} {rest rest' : List Byte} (h : decodeOperand op rest = .instr .halt rest') :
    op = .halt := by
  cases op with
  | halt => rfl
  | push | call | jump | jumpIf | storeLocal | loadLocal | storeParam | loadParam => cases rest <;> cases h
  | add | sub | mul | div | print | ret => cases h

theorem decode_eq_halt_iff {b : Byte} {rest : List Byte} :
    (∃ rest', decode (b :: rest) = .instr .halt rest') ↔ b = Opcode.halt.byte := by
  constructor
  · rintro ⟨rest', h⟩
    rw [decode] at h
    split at h
    · cases h
    · next op hop => rw [byte_of_opcodeOfByte hop, decodeOperand_eq_halt h]
  · rintro rfl
    exact ⟨rest, decode_opcode_byte .halt rest⟩

theorem fetch_eq_halt_iff {s : State} : fetch s = .instr .halt ↔ s.prog.read? s.pc = some 0xFF#8 := by
  rw [fetch_eq_instr]
  constructor
  · rintro ⟨hlt, hd⟩
    obtain ⟨b, hb⟩ := Option.isSome_iff_exists.1 (Memory.read?_isSome.2 hlt)
    rw [Memory.window_cons hb, decode_eq_halt_iff] at hd
    rw [hb, hd, Opcode.byte]
  · intro hb
    refine ⟨Memory.read?_lt hb, ?_⟩
    rw [Memory.window_cons hb, decode_eq_halt_iff, Opcode.byte]

/-! ### What ends a run -/

section
variable {s t : State}

/-- HALT alone halts: another completion leaves the status, and a fault leaves Faulted. -/
theorem eq_halt_of_outcome {i : Instr} (ho : ExecOutcome i s t) (hr : s.status = .running) (ht : t.status = .halted) :
    i = .halt := by
  cases ho with
  | halted hi => exact hi
  | underflow | zeroDivisor | outOfBounds | osOverflow | csOverflow => cases ht
  | _ => cases hr.symm.trans ht

theorem eq_asFaulted_of_outcome {i : Instr} (ho : ExecOutcome i s t) (hr : s.status = .running)
    (ht : t.status = .faulted) : ∃ k, k ≠ FaultKind.noFault ∧ t = s.asFaulted k t.faultPc := by
  cases ho with
  | underflow | zeroDivisor | outOfBounds | osOverflow | csOverflow => exact ⟨_, by decide, rfl⟩
  | halted => cases ht
  | _ => cases hr.symm.trans ht

theorem halted_iff_of_step (h : step s = .next t) :
    t.status = .halted ↔ s.pc = s.prog.len ∨ s.prog.read? s.pc = some 0xFF#8 := by
  obtain ⟨hr, hcases⟩ := step_cases h
  rw [← fetch_eq_halt_iff]
  constructor
  · intro ht
    rcases hcases with ⟨hend, _⟩ | ⟨_, rfl⟩ | ⟨_, _, rfl⟩ | ⟨_, _, _, ⟨_, _, rfl⟩ | ⟨_, rfl⟩⟩ | ⟨i, _, hf, he⟩
    · exact .inl hend
    · cases ht
    · cases ht
    · cases ht
    · cases ht
    · rw [hf, eq_halt_of_outcome (exec_outcome he) hr ht]
      exact .inr rfl
  · rintro (hend | hf)
    · rw [step_of_pc_eq_len hr hend] at h
      cases h
      rfl
    · rw [step_running hr, hf] at h
      cases h
      rfl

theorem eq_asFaulted_of_step (h : step s = .next t) (ht : t.status = .faulted) :
    ∃ k, k ≠ FaultKind.noFault ∧ t = s.asFaulted k t.faultPc := by
  obtain ⟨hr, ⟨_, rfl⟩ | ⟨_, rfl⟩ | ⟨_, _, rfl⟩ | ⟨_, _, _, ⟨_, _, rfl⟩ | ⟨_, rfl⟩⟩ | ⟨i, _, _, he⟩⟩ := step_cases h
  · cases ht
  · exact ⟨.programCounterOutOfRange, by decide, rfl⟩
  · exact ⟨.unknownOpcode, by decide, rfl⟩
  · exact ⟨.stackUnderflow, by decide, rfl⟩
  · exact ⟨.programCounterOutOfRange, by decide, rfl⟩
  · exact eq_asFaulted_of_outcome (exec_outcome he) hr ht

end

/-! ### The obligation of spec/70_reset_and_hazards.md on the ends of a run -/

/-- Settles O15: whatever the fetch finds has a next state, and the branches of `step_cases` say which of them ends the
run. -/
theorem runEndsOnlyByHaltOrFault : Obligations.RunEndsOnlyByHaltOrFault :=
  ⟨fun _ => exists_step_eq_next_iff, fun _ _ h => ⟨halted_iff_of_step h, eq_asFaulted_of_step h⟩⟩

end Sys2Proof
end

section
/-! SUPPORT. Decoder and encoder as each other's inverse (spec/30_encoding.md R60 to R68), what that says of the bytes at the
program counter once a fetch has found an instruction there, and the step on them (spec/40_dispatch.md R81 to R87). -/

namespace Sys2Proof

open Sys2Proof.Machine Sys2Proof.Laws.Lengths

/-! ### The two directions -/

theorem encode_eq_cons (i : Instr) : encode i = (opcodeOf i).byte :: (encode i).tail := by
  cases i <;> rfl

/-- The operand byte of a well-formed instruction reads as its operand (R63). -/
theorem decodeOperand_tail_encode {i : Instr} (h : i.wf = true) (rest : List Byte) :
    decodeOperand (opcodeOf i) ((encode i).tail ++ rest) = .instr i rest := by
  cases i with
  | push imm => exact congrArg (fun n => Decoded.instr (.push n) rest) (signedOfByte_byteOfInt h)
  | call n | jump n | jumpIf n | storeLocal n | loadLocal n | storeParam n | loadParam n =>
    simp [opcodeOf, encode, decodeOperand, takeOperand, unsignedOfByte_byteOfNat (of_decide_eq_true h)]
  | add | sub | mul | div | print | ret | halt => rfl

theorem decode_encode {i : Instr} (h : i.wf = true) (rest : List Byte) :
    decode (encode i ++ rest) = .instr i rest := by
  rw [encode_eq_cons, List.cons_append, decode_opcode_byte, decodeOperand_tail_encode h]

/-- A byte is in the range of an `addr8`, which is that of an `idx8` too (R63). -/
theorem addr8Ok_unsignedOfByte (b : Byte) : addr8Ok (unsignedOfByte b) = true := decide_eq_true (unsignedOfByte_le b)

/-- What the decoding after an opcode gives is well formed, and its encoding is what was read (R61, R62). -/
theorem wf_and_encode_of_decodeOperand {op : Opcode} {bs rest : List Byte} {i : Instr}
    (h : decodeOperand op bs = .instr i rest) : i.wf = true ∧ op.byte :: bs = encode i ++ rest := by
  cases op with
  | add | sub | mul | div | print | ret | halt => cases h; exact ⟨rfl, rfl⟩
  | push =>
    cases bs with
    | nil => cases h
    | cons v bs =>
      cases h
      exact ⟨decide_eq_true (signedOfByte_range v), by simp [encode, Opcode.byte, byteOfInt_signedOfByte]⟩
  | call | jump | jumpIf | storeLocal | loadLocal | storeParam | loadParam =>
    cases bs with
    | nil => cases h
    | cons v bs =>
      cases h
      exact ⟨addr8Ok_unsignedOfByte v, by simp [encode, Opcode.byte, byteOfNat_unsignedOfByte]⟩

theorem wf_and_encode_of_decode {bs rest : List Byte} {i : Instr} (h : decode bs = .instr i rest) :
    i.wf = true ∧ bs = encode i ++ rest := by
  cases bs with
  | nil => cases h
  | cons b bs =>
    rw [decode] at h
    split at h
    · cases h
    · next op hop =>
      rw [byte_of_opcodeOfByte hop]
      exact wf_and_encode_of_decodeOperand h

/-! ### The bytes at the program counter of a fetched instruction -/

section
variable {s : State} {i : Instr}

theorem wf_of_fetch (h : fetch s = .instr i) : i.wf = true := by
  obtain ⟨_, rest, hd⟩ := fetch_eq_instr.1 h
  exact (wf_and_encode_of_decode hd).1

/-- A two-byte instruction was fetched with its operand byte (R62, R86). -/
theorem read?_operand_of_fetch {op v : Byte} (h : fetch s = .instr i) (he : encode i = [op, v]) :
    s.prog.read? (s.pc + 1) = some v := by
  obtain ⟨hlt, rest, hd⟩ := fetch_eq_instr.1 h
  obtain ⟨b, hb⟩ := Option.isSome_iff_exists.1 (Memory.read?_isSome.2 hlt)
  have hw := (wf_and_encode_of_decode hd).2
  rw [Memory.window_cons hb, he, List.cons_append, List.cons_append, List.nil_append, List.cons.injEq] at hw
  cases hv : s.prog.read? (s.pc + 1) with
  | none => simp [hv] at hw
  | some w =>
    rw [hv] at hw
    exact congrArg some (List.cons.inj hw.2).1

theorem target_le_of_fetch {target : Nat} (h : fetch s = .instr i) (hwf : i.wf = addr8Ok target) : target ≤ 255 :=
  of_decide_eq_true (hwf.symm.trans (wf_of_fetch h))

/-- A jump or call target is the operand byte (R63, R132). -/
theorem target_of_fetch {op : Byte} {target : Nat} (h : fetch s = .instr i) (hwf : i.wf = addr8Ok target)
    (he : encode i = [op, byteOfNat target]) :
    target ≤ 255 ∧ s.prog.read? (s.pc + 1) = some (BitVec.ofNat 8 target) :=
  ⟨target_le_of_fetch h hwf, read?_operand_of_fetch h he⟩

/-! ### The step where an instruction stands -/

theorem lt_len_of_decode_window {rest : List Byte} (h : decode (s.prog.window s.pc) = .instr i rest) :
    s.pc < s.prog.len := by
  by_contra hge
  rw [Memory.window, Memory.read?_eq_none.2 (by omega), Memory.read?_eq_none.2 (by omega)] at h
  cases h

theorem step_of_decode_window {rest : List Byte} (hr : s.status = .running)
    (h : decode (s.prog.window s.pc) = .instr i rest) : step s = exec i s := by
  rw [step_running hr, fetch_eq_instr.2 ⟨lt_len_of_decode_window h, rest, h⟩]

/-- An encoding that stands at `pc` is the front of what a fetch there reads. -/
theorem window_of_codeAt (h : s.CodeAt (encode i)) : ∃ rest, s.prog.window s.pc = encode i ++ rest := by
  rcases encode_length i with hl | hl
  · obtain ⟨b, hb⟩ := List.length_eq_one_iff.1 hl
    rw [hb] at h ⊢
    exact ⟨_, Memory.window_cons (h 0 (by simp))⟩
  · obtain ⟨b, v, hbv⟩ := List.length_eq_two.1 hl
    rw [hbv] at h ⊢
    have hb : s.prog.read? s.pc = some b := h 0 (by simp)
    have hv : s.prog.read? (s.pc + 1) = some v := h 1 (by simp)
    exact ⟨[], by simp [Memory.window_cons hb, hv]⟩

/-! ### The step that meets a truncated instruction -/

theorem faultTruncated_eq (op : Opcode) (s : State) :
    faultTruncated op s = .next (s.asFaulted (if op = .jumpIf ∧ s.os = [] then .stackUnderflow
      else .programCounterOutOfRange) (s.pc + 1)) := by
  simp only [faultTruncated, Nat.lt_one_iff, List.length_eq_zero_iff]
  split <;> rfl

end

theorem Opcode.byte_injective : Function.Injective Opcode.byte := fun op op' h =>
  Option.some_injective _ (by rw [← opcodeOfByte_byte, h, opcodeOfByte_byte])

/-! ### The obligations of spec/30_encoding.md on whole instructions, and of spec/40_dispatch.md on the step -/

/-- Settles O1: the opcode byte leads back to the opcode, and the operand byte to the operand. -/
theorem decodeUndoesEncode : Obligations.DecodeUndoesEncode := fun _ rest h => decode_encode h rest

/-- Settles O2: the byte of a recognised opcode is that opcode's own, and an operand byte is encoded by what it reads as. -/
theorem decodedBytesAreTheEncoding : Obligations.DecodedBytesAreTheEncoding := fun _ _ _ h =>
  wf_and_encode_of_decode h

/-- Settles O6, by running the decoder on the listed words. -/
theorem listedWordsDecode : Obligations.ListedWordsDecode := by
  unfold Obligations.ListedWordsDecode
  decide

/-- Settles O7: the bytes that were fetched are the encoding of what was fetched. -/
theorem targetsAreTheOperandByte : Obligations.TargetsAreTheOperandByte := by
  rintro s i target hf (rfl | rfl | rfl)
  all_goals exact target_of_fetch hf rfl rfl

/-- Settles O10: an encoding at `pc` is what a fetch decodes there. -/
theorem stepRunsTheDecodedInstruction : Obligations.StepRunsTheDecodedInstruction := by
  refine ⟨fun s i hr hwf hc => ?_, fun s i rest hr hd => step_of_decode_window hr hd⟩
  obtain ⟨rest, hw⟩ := window_of_codeAt hc
  exact step_of_decode_window hr (hw ▸ decode_encode hwf rest)

/-- Settles O13: each listed byte is the byte of a format I opcode, and JUMP_IF's is 0x13. -/
theorem truncatedInstructionFaults : Obligations.TruncatedInstructionFaults := by
  intro s b hr hb hl hmem
  rw [← operandOpcodes_map_byte] at hmem
  obtain ⟨op, hop, rfl⟩ := List.mem_map.1 hmem
  rw [step_running hr, fetch_of_operandOpcode_last hop hb hl]
  simp only [faultTruncated_eq, show (0x13#8 : Byte) = Opcode.jumpIf.byte from rfl, Opcode.byte_injective.eq_iff]

end Sys2Proof
end

section
/-! SUPPORT. The run (spec/40_dispatch.md R80 to R83) and the state after reset (spec/10_state.md R35): a terminal state has no
step, and `run` is iterated step. -/

namespace Sys2Proof

open Sys2Proof.Machine

section
variable {s t : State}

theorem step_of_halted (h : s.status = .halted) : step s = .fault .haltedHasNoStep := by
  rw [step, h]

theorem step_of_faulted (h : s.status = .faulted) : step s = .fault .faultedHasNoStep := by
  rw [step, h]

theorem run_succ_of_step (fuel : Nat) (h : step s = .next t) : run (fuel + 1) s = run fuel t := by
  rw [run, h]

/-- A terminal state has no next state to run on from (R81). -/
theorem run_of_terminal (fuel : Nat) (h : s.status ≠ .running) : run fuel s = s := by
  cases fuel with
  | zero => rfl
  | succ fuel =>
    rw [run]
    split
    · next t ht => exact absurd (running_of_step ht) h
    · rfl
    · rfl

end

/-- Fuel is spent one after the other (R80). -/
theorem run_add (fuel more : Nat) (s : State) : run (fuel + more) s = run more (run fuel s) := by
  induction fuel generalizing s with
  | zero => rw [Nat.zero_add, run]
  | succ fuel ih =>
    by_cases hr : s.status = .running
    · obtain ⟨t, ht⟩ := exists_step_eq_next_iff.2 hr
      rw [Nat.add_right_comm, run_succ_of_step _ ht, run_succ_of_step _ ht, ih]
    · rw [run_of_terminal _ hr, run_of_terminal _ hr, run_of_terminal _ hr]

theorem step_eq_run_one {s : State} (hr : s.status = .running) : step s = .next (run 1 s) := by
  obtain ⟨t, ht⟩ := exists_step_eq_next_iff.2 hr
  rw [run_succ_of_step 0 ht, run, ht]

/-! ### The obligations of spec/40_dispatch.md and spec/10_state.md on steps, runs and reset -/

/-- Settles O8: reset and a reset by the host are both construction. -/
theorem resetLeavesTheSpecState : Obligations.ResetLeavesTheSpecState :=
  ⟨⟨rfl, rfl, rfl, rfl, rfl, rfl, rfl, rfl⟩, fun _ => rfl⟩

/-- Settles O11: the fetch at `PLEN` finds the end of the program. -/
theorem endOfProgramHalts : Obligations.EndOfProgramHalts := fun _ => step_of_pc_eq_len

/-- Settles O12: the fetch above `PLEN` faults, and `pc` is left where it is. -/
theorem pcBeyondTheEndFaults : Obligations.PcBeyondTheEndFaults := fun _ => step_of_len_lt_pc

/-- Settles O14: a step is taken while Running only. -/
theorem terminalStatesHaveNoStep : Obligations.TerminalStatesHaveNoStep := fun _ =>
  ⟨step_of_halted, step_of_faulted, fun h fuel => run_of_terminal fuel h⟩

/-- Settles O16: each shared shape of a meaning answers a next state on all its branches. -/
theorem everyInstructionHasANextState : Obligations.EveryInstructionHasANextState := exists_exec_eq_next

/-- Settles O56: more fuel is spent on the state the run has reached (`run_add`). -/
theorem runIsIteratedStep : Obligations.RunIsIteratedStep := by
  refine ⟨fun fuel more s h => ?_, fun fuel s h => ?_⟩
  · rw [run_add, run_of_terminal more h]
  · rw [step_eq_run_one h, run_add]

end Sys2Proof
end

section
/-! SUPPORT. The values the arithmetic instructions push (spec/41_operand_stack.md R102 to R108): where overflow wraps, ADD, SUB
and MUL are the operations of 32-bit words, and the quotient of DIV has the magnitude and the sign of R108. -/

namespace Sys2Proof

open Sys2Proof.Machine

/-! ### Wrapped results (D6, D7) -/

theorem narrow_eq_of_toInt {ovf : OverflowRule} {z : Int} {r : Value} (hw : ovf = .wrap)
    (hr : r.toInt = z.bmod (2 ^ 32)) : narrow ovf z = r := by
  rw [hw, narrow, wrap32_of_toInt_eq hr]

section
variable {ovf : OverflowRule} (hw : ovf = .wrap) (top second : Value)
include hw

theorem addValue_of_wrap : addValue ovf top second = top + second :=
  narrow_eq_of_toInt hw (BitVec.toInt_add top second)

theorem subValue_of_wrap : subValue ovf top second = top - second :=
  narrow_eq_of_toInt hw BitVec.toInt_sub

theorem mulValue_of_wrap : mulValue ovf top second = top * second :=
  narrow_eq_of_toInt hw (BitVec.toInt_mul top second)

end

section
variable {s : State} (hw : s.cfg.ovf = .wrap) (rest : List Value) (second top : Value)
include hw

theorem exec_add_of_wrap : exec .add { s with os := rest ++ [second, top] } =
    .next { s with pc := s.pc + 1, os := rest ++ [top + second] } := by
  rw [exec_add_of_two rfl, addValue_of_wrap hw]

theorem exec_sub_of_wrap : exec .sub { s with os := rest ++ [second, top] } =
    .next { s with pc := s.pc + 1, os := rest ++ [top - second] } := by
  rw [exec_sub_of_two rfl, subValue_of_wrap hw]

theorem exec_mul_of_wrap : exec .mul { s with os := rest ++ [second, top] } =
    .next { s with pc := s.pc + 1, os := rest ++ [top * second] } := by
  rw [exec_mul_of_two rfl, mulValue_of_wrap hw]

end

/-- An instruction that replaces the two top cells by an associative operation is associative over three cells (R107). -/
theorem exec_assoc {i : Instr} {f : Value → Value → Value} (hassoc : ∀ a b c, f (f a b) c = f a (f b c))
    (hi : ∀ {s : State}, s.cfg.ovf = .wrap → ∀ (rest : List Value) (second top : Value),
      exec i { s with os := rest ++ [second, top] } = .next { s with pc := s.pc + 1, os := rest ++ [f top second] })
    {s : State} (hw : s.cfg.ovf = .wrap) (rest : List Value) (x y z : Value) :
    ∃ t u v, exec i { s with os := rest ++ [x, y, z] } = .next t ∧ exec i t = .next v ∧
      exec i { s with os := rest ++ [x, y] } = .next u ∧ exec i { u with os := u.os ++ [z] } = .next v := by
  refine ⟨{ s with pc := s.pc + 1, os := rest ++ [x, f z y] }, { s with pc := s.pc + 1, os := rest ++ [f y x] },
    { s with pc := s.pc + 1 + 1, os := rest ++ [f (f z y) x] }, ?_, ?_, hi hw rest x y, ?_⟩
  · simpa using hi hw (rest ++ [x]) y z
  · exact hi (s := { s with pc := s.pc + 1 }) hw rest x (f z y)
  · simpa [hassoc] using hi (s := { s with pc := s.pc + 1 }) hw rest (f y x) z

/-! ### The quotient (R108) -/

/-- -2^31 by -1 is the one quotient that does not fit 32 bits. -/
theorem tdiv_toInt_lt {top second : Value} (h0 : second ≠ 0#32)
    (h : ¬ (top.toInt = -2 ^ 31 ∧ second.toInt = -1)) : Int.tdiv top.toInt second.toInt < 2 ^ 31 := by
  have hlo := top.le_toInt
  have hhi := top.toInt_lt
  have hne : second.toInt ≠ 0 := fun hz => h0 (BitVec.eq_of_toInt_eq hz)
  have habs : (Int.tdiv top.toInt second.toInt).natAbs = top.toInt.natAbs / second.toInt.natAbs := Int.natAbs_tdiv _ _
  by_cases hs : second.toInt = -1
  · rw [hs, Int.tdiv_neg, Int.tdiv_one]
    omega
  by_cases hs' : second.toInt = 1
  · rw [hs', Int.tdiv_one]
    omega
  · have := Nat.div_le_div_left (a := top.toInt.natAbs) (show 2 ≤ second.toInt.natAbs by omega) (by decide)
    omega

/-- The sign of a quotient truncated toward zero: the spec's formula is the product of the two signs and the magnitude. -/
theorem int_tdiv_neg_iff {x y : Int} (hy : y ≠ 0) :
    Int.tdiv x y < 0 ↔ (x < 0 ↔ 0 < y) ∧ x.natAbs / y.natAbs ≠ 0 := by
  rw [← tdiv_eq, tdiv]
  generalize hm : x.natAbs / y.natAbs = m
  rcases Int.lt_trichotomy x 0 with hx | rfl | hx
  · rcases Int.lt_or_gt_of_ne hy with hy | hy
    · simp [Int.sign_eq_neg_one_of_neg hx, Int.sign_eq_neg_one_of_neg hy]; omega
    · simp [Int.sign_eq_neg_one_of_neg hx, Int.sign_eq_one_of_pos hy]; omega
  · simp at hm
    simp [← hm]
  · rcases Int.lt_or_gt_of_ne hy with hy | hy
    · simp [Int.sign_eq_one_of_pos hx, Int.sign_eq_neg_one_of_neg hy]; omega
    · simp [Int.sign_eq_one_of_pos hx, Int.sign_eq_one_of_pos hy]; omega

theorem divValue_of_overflow {ovf : OverflowRule} {top second : Value} (hw : ovf = .wrap) (ht : top.toInt = -2 ^ 31)
    (hs : second.toInt = -1) : (divValue ovf top second).toInt = -2 ^ 31 := by
  rw [divValue, tdiv_eq, ht, hs, hw, narrow, wrap32_toInt]
  decide

/-! ### The obligations of spec/41_operand_stack.md on the arithmetic instructions -/

/-- Settles O18: `r` is the one value with the wrapped number. -/
theorem addPushesTheWrappedSum : Obligations.AddPushesTheWrappedSum := by
  intro s rest second top r hw h hr
  rw [exec_add_of_two h, addValue, narrow_eq_of_toInt hw hr]

/-- Settles O19: `r` is the one value with the wrapped number. -/
theorem subPushesTheWrappedDifference : Obligations.SubPushesTheWrappedDifference := by
  intro s rest second top r hw h hr
  rw [exec_sub_of_two h, subValue, narrow_eq_of_toInt hw hr]

/-- Settles O20: `r` is the one value with the wrapped number. -/
theorem mulPushesTheWrappedProduct : Obligations.MulPushesTheWrappedProduct := by
  intro s rest second top r hw h hr
  rw [exec_mul_of_two h, mulValue, narrow_eq_of_toInt hw hr]

/-- Settles O21: the spec's quotient is Lean's truncating division (`tdiv_eq`). -/
theorem divPushesTheTruncatedQuotient : Obligations.DivPushesTheTruncatedQuotient := by
  intro s rest second top r hw h h0 hr
  have hne : second ≠ 0#32 := fun hz => h0 (hz ▸ BitVec.toInt_zero)
  rw [exec_div_of_two h hne, divValue, tdiv_eq, narrow_eq_of_toInt hw hr]

/-- Settles O24: with wrapping overflow the three instructions are the ring operations of 32-bit words. -/
theorem arithmeticIdentities : Obligations.ArithmeticIdentities := by
  intro s rest x y hw
  refine ⟨?_, ?_, ?_, ?_, ?_, ?_, fun z => ?_, fun z => ?_⟩
  · rw [exec_add_of_wrap hw, exec_add_of_wrap hw, BitVec.add_comm]
  · rw [exec_mul_of_wrap hw, exec_mul_of_wrap hw, BitVec.mul_comm]
  · rw [exec_sub_of_wrap hw, exec_add_of_wrap hw, BitVec.sub_eq_add_neg]
  · rw [exec_mul_of_wrap hw, BitVec.mul_zero]
  · rw [exec_add_of_wrap hw, BitVec.add_zero]
  · rw [exec_sub_of_wrap hw, BitVec.sub_self]
  · exact exec_assoc BitVec.add_assoc exec_add_of_wrap hw rest x y z
  · exact exec_assoc BitVec.mul_assoc exec_mul_of_wrap hw rest x y z

/-- Settles O25: every quotient but -2^31 by -1 fits, so DIV pushes it exactly. -/
theorem quotientMagnitudeAndSign : Obligations.QuotientMagnitudeAndSign := by
  intro s rest second top hw h h0
  refine ⟨_, exec_div_of_two h h0, fun ⟨ht, hs⟩ => divValue_of_overflow hw ht hs, fun hfits => ?_⟩
  rw [divValue_toInt_of_fits _ (tdiv_toInt_lt h0 hfits)]
  exact ⟨Int.natAbs_tdiv _ _, int_tdiv_neg_iff fun hz => h0 (BitVec.eq_of_toInt_eq hz)⟩

end Sys2Proof
end

section
/-! SUPPORT. What the remaining instructions without a slot do, as whole next states: PRINT (spec/41_operand_stack.md R106),
CALL and RETURN (spec/42_call_frame.md R120, R121), JUMP_IF (spec/43_control_flow.md R131) and HALT (spec/40_dispatch.md R89),
and SUB before a JUMP_IF as the test for inequality (R134). -/

namespace Sys2Proof

open Sys2Proof.Machine

section
variable {s : State}

theorem exec_print_of_append {rest : List Value} {v : Value} (h : s.os = rest ++ [v]) : exec .print s =
    .next { s with pc := s.pc + 1, os := rest, out := s.out ++ [{ pc := s.pc + 1, value := v }] } := by
  rw [exec, execPrint, h, pop?_append]
  rfl

theorem exec_call_of_fits (target : Nat) (h : ∀ n, s.cfg.csCap = some n → s.cs.length + 2 ≤ n) :
    exec (.call target) s =
      .next { s with cs := s.cs ++ [s.pc + 2, s.fp], fp := s.os.length, pc := target } := by
  have hfull : ¬ s.csFull = true := fun hf => by
    obtain ⟨n, hn, hlt⟩ := csFull_eq_true.1 hf
    exact absurd (h n hn) (by omega)
  have hcs : pushTop (pushTop s.cs (s.pc + 2)) s.fp = s.cs ++ [s.pc + 2, s.fp] := List.append_assoc ..
  rw [exec, execCall, if_neg hfull, ← hcs]
  rfl

theorem exec_call_of_full {n : Nat} (target : Nat) (hn : s.cfg.csCap = some n) (hlt : n < s.cs.length + 2) :
    exec (.call target) s = .next (s.asFaulted .stackOverflow (s.pc + 2)) := by
  rw [exec, execCall, if_pos (csFull_eq_true.2 ⟨n, hn, hlt⟩)]
  rfl

theorem exec_ret_of_append {rest : List Nat} {returnPc savedFp : Nat} (h : s.cs = rest ++ [returnPc, savedFp]) :
    exec .ret s = .next { s with cs := rest, fp := savedFp, pc := returnPc } := by
  rw [exec, execRet, h, pop2?_append]
  rfl

theorem exec_jumpIf_of_append {rest : List Value} {c : Value} (target : Nat) (h : s.os = rest ++ [c]) :
    exec (.jumpIf target) s = .next { s with os := rest, pc := if c.toInt = 0 then s.pc + 2 else target } := by
  have hc : isNonzero c = true ↔ c.toInt ≠ 0 := by
    rw [isNonzero_eq_true, ne_eq, ne_eq, ← BitVec.toInt_inj, BitVec.toInt_zero]
  rw [exec, execJumpIf, h, pop?_append]
  by_cases h0 : c.toInt = 0
  · rw [if_pos h0]
    exact if_neg fun hn => hc.1 hn h0
  · rw [if_neg h0]
    exact if_pos (hc.2 h0)

end

/-- A difference is zero for equal values only, when overflow wraps or none occurs (R134). -/
theorem subValue_toInt_eq_zero_iff {ovf : OverflowRule} {top second : Value}
    (h : ovf = .wrap ∨ (-2 ^ 31 ≤ top.toInt - second.toInt ∧ top.toInt - second.toInt < 2 ^ 31)) :
    (subValue ovf top second).toInt = 0 ↔ top = second := by
  rcases h with hw | ⟨hlo, hhi⟩
  · rw [subValue_of_wrap hw, ← BitVec.toInt_zero (w := 32), BitVec.toInt_inj, BitVec.sub_eq_iff_eq_add, BitVec.zero_add]
  · rw [subValue, narrow_toInt_of_fits ovf hlo hhi, Int.sub_eq_zero, BitVec.toInt_inj]

/-! ### The obligations on PRINT, CALL, RETURN, JUMP_IF and HALT -/

/-- Settles O26, as the spec lemma of PRINT. -/
theorem printPopsAndEmits : Obligations.PrintPopsAndEmits := fun _ _ _ => exec_print_of_append

/-- Settles O27: CALL checks the capacity and nothing else. -/
theorem callSavesAndEnters : Obligations.CallSavesAndEnters :=
  ⟨fun _ target h => exec_call_of_fits target h, fun _ target _ hn hlt => exec_call_of_full target hn hlt⟩

/-- Settles O28: RETURN checks the count and nothing else. -/
theorem returnRestoresTheCaller : Obligations.ReturnRestoresTheCaller :=
  ⟨fun _ _ _ _ => exec_ret_of_append, fun _ => exec_ret_of_lt_two⟩

/-- Settles O31: the condition is popped before the test of its 32 bits. -/
theorem jumpIfPopsAndTests : Obligations.JumpIfPopsAndTests := fun _ target _ _ => exec_jumpIf_of_append target

/-- Settles O32: JUMP_IF tests the difference SUB left. -/
theorem subThenJumpIfTestsInequality : Obligations.SubThenJumpIfTestsInequality := by
  intro s rest second top target h hovf
  refine ⟨_, _, exec_sub_of_two h, exec_jumpIf_of_append target rfl, rfl, ?_⟩
  simp only [subValue_toInt_eq_zero_iff hovf]

/-- Settles O33: HALT checks nothing. -/
theorem haltStops : Obligations.HaltStops := fun _ => rfl

/-! ### The obligation of spec/60_exceptions.md on StackUnderflow -/

/-- Settles O42: one lemma per instruction that needs cells or entries. -/
theorem underflowComesFirstAndReportsItsAddress : Obligations.UnderflowComesFirstAndReportsItsAddress := fun _ =>
  ⟨fun h => ⟨arith_of_lt_two _ h, arith_of_lt_two _ h, arith_of_lt_two _ h, exec_div_of_lt_two h⟩,
    fun h => ⟨exec_print_of_nil h, fun target => exec_jumpIf_of_nil target h, fun _ => store_of_nil _ h,
      fun _ => store_of_nil _ h⟩, exec_ret_of_lt_two⟩

end Sys2Proof
end

section
/-! SUPPORT. The stores of spec/44_local_param.md R141, R143: what a store at an address does, a load of the slot right after
it (R145), slot accesses with `fp` above the stack (R146), and exactly when an address is invalid (R164). -/

namespace Sys2Proof

open Sys2Proof.Machine

/-! ### A store at an address, once its operand byte is consumed -/

section
variable {s t : State} {addr : Int} {rest : List Value} {v : Value}

theorem store_of_valid {k : Nat} (h : s.os = rest ++ [v]) (ha : addr = (k : Int)) (hk : k < rest.length) :
    storeSlot addr s.afterOpcode.afterOperand = .next { s with pc := s.pc + 2, os := rest.set k v } :=
  storeSlot_of_valid (s := s.afterOpcode.afterOperand) h ha hk

theorem store_of_invalid (h : s.os = rest ++ [v]) (ha : addr < 0 ∨ (rest.length : Int) ≤ addr) :
    storeSlot addr s.afterOpcode.afterOperand = .next (s.asFaulted .outOfBoundsAccess (s.pc + 2)) :=
  storeSlot_of_invalid (s := s.afterOpcode.afterOperand) h ha

/-- A store that leaves the engine running has written a cell. -/
theorem stored_of_running (h : storeSlot addr s.afterOpcode.afterOperand = .next t) (hos : s.os = rest ++ [v])
    (ht : t.status = .running) :
    ∃ k : Nat, addr = (k : Int) ∧ k < rest.length ∧ t = { s with pc := s.pc + 2, os := rest.set k v } := by
  by_cases ha : addr < 0 ∨ (rest.length : Int) ≤ addr
  · rw [store_of_invalid hos ha] at h
    cases h
    cases ht
  · obtain ⟨k, rfl⟩ := Int.eq_ofNat_of_zero_le (show 0 ≤ addr by omega)
    have hk : k < rest.length := by omega
    rw [store_of_valid hos rfl hk] at h
    cases h
    exact ⟨k, rfl, hk, rfl⟩

/-- The store has freed the place the load needs, and the load appends the value the store moved (R145). -/
theorem load_after_store {k : Nat} (hr : s.status = .running) (hos : s.os = rest ++ [v])
    (hcap : ∀ n, s.cfg.osCap = some n → s.os.length ≤ n) (hk : k < rest.length)
    (ht : t = { s with pc := s.pc + 2, os := rest.set k v }) (ha : addr = (k : Int)) :
    ∃ u, loadSlot addr t.afterOpcode.afterOperand = .next u ∧ u.status = .running ∧ u.os.getLast? = some v ∧
      u.os = s.os.set k v := by
  subst ht
  refine ⟨_, load_of_not_full ha (List.getElem?_set_self hk) fun hfull => ?_, hr, List.getLast?_append_cons .., ?_⟩
  · have hle := hcap _ hfull
    simp [hos] at hle
  · rw [hos, List.set_append_left _ _ hk]

end

/-! ### STORE_LOCAL and STORE_PARAM -/

theorem exec_storeLocal (idx : Nat) (s : State) :
    exec (.storeLocal idx) s = storeSlot ((s.fp + idx : Nat) : Int) s.afterOpcode.afterOperand := by
  rw [exec, execStoreLocal, localAddr_eq_natCast]

theorem exec_storeParam (idx : Nat) (s : State) :
    exec (.storeParam idx) s = storeSlot (paramAddr s.fp idx) s.afterOpcode.afterOperand := rfl

/-! ### When an access is out of bounds (R164) -/

section
variable {s : State} {addr : Int}

theorem load_outOfBounds_iff (hr : s.status = .running) :
    (∃ p, loadSlot addr s.afterOpcode.afterOperand = .next (s.asFaulted .outOfBoundsAccess p)) ↔
      addr < 0 ∨ (s.os.length : Int) ≤ addr := by
  refine ⟨fun ⟨p, h⟩ => ?_, fun ha => ⟨_, load_of_invalid ha⟩⟩
  rcases loadSlot_cases h with ⟨ha, _⟩ | ⟨_, _, _, _, ⟨_, ht⟩ | ⟨_, ht⟩⟩
  · exact ha
  · cases congrArg State.faultKind ht
  · cases hr.symm.trans (congrArg State.status ht).symm

theorem store_outOfBounds_iff {rest : List Value} {v : Value} (hr : s.status = .running) (hos : s.os = rest ++ [v]) :
    (∃ p, storeSlot addr s.afterOpcode.afterOperand = .next (s.asFaulted .outOfBoundsAccess p)) ↔
      addr < 0 ∨ (rest.length : Int) ≤ addr := by
  refine ⟨fun ⟨p, h⟩ => ?_, fun ha => ⟨_, store_of_invalid hos ha⟩⟩
  by_contra ha
  obtain ⟨k, rfl⟩ := Int.eq_ofNat_of_zero_le (show 0 ≤ addr by omega)
  rw [store_of_valid hos rfl (by omega)] at h
  have ht := congrArg State.status (Host.Outcome.next.inj h)
  cases hr.symm.trans ht

end

/-- An address that is a natural number, as a local address is, is never negative. -/
theorem natCast_invalid_iff {a n : Nat} : ((a : Int) < 0 ∨ (n : Int) ≤ (a : Int)) ↔ n ≤ a := by omega

/-! ### The obligations of spec/44_local_param.md on the stores, and of spec/60_exceptions.md on the bounds -/

/-- Settles O34: a local address is the number of a cell or lies above the stack that is left. -/
theorem storeLocalOverwritesOneCell : Obligations.StoreLocalOverwritesOneCell := by
  intro s idx rest v h
  rw [exec_storeLocal]
  refine ⟨fun hlt => ⟨_, store_of_valid h rfl hlt, List.length_set, List.getElem?_set_self hlt, fun k hk => ?_⟩,
    fun hhigh => store_of_invalid h (natCast_invalid_iff.2 hhigh)⟩
  exact List.getElem?_set_ne hk.symm

/-- Settles O35: a parameter address is the number of a cell, or negative, or above the stack that is left. -/
theorem storeParamOverwritesOneCell : Obligations.StoreParamOverwritesOneCell := by
  intro s idx rest v h
  rw [exec_storeParam]
  refine ⟨fun k hk hlt => ⟨_, store_of_valid h (paramAddr_eq_natCast hk) hlt, List.length_set,
    List.getElem?_set_self hlt, fun k' hk' => ?_⟩, fun hinvalid => store_of_invalid h (paramAddr_invalid_iff.2 hinvalid)⟩
  exact List.getElem?_set_ne hk'.symm

/-- Settles O38: the store leaves `fp`, so the load has the same address. -/
theorem storeThenLoadLocalReturnsTheValue : Obligations.StoreThenLoadLocalReturnsTheValue := by
  intro s t idx rest v hr hos hcap h ht
  rw [exec_storeLocal] at h
  obtain ⟨k, hk, hlt, rfl⟩ := stored_of_running h hos ht
  cases Int.ofNat_inj.1 hk
  rw [exec_loadLocal]
  exact load_after_store hr hos hcap hlt rfl rfl

/-- Settles O39: the store leaves `fp`, so the load has the same address. -/
theorem storeThenLoadParamReturnsTheValue : Obligations.StoreThenLoadParamReturnsTheValue := by
  intro s t idx rest v hr hos hcap h ht
  obtain ⟨k, hk, hlt, rfl⟩ := stored_of_running h hos ht
  obtain ⟨u, hu⟩ := load_after_store hr hos hcap hlt rfl hk
  exact ⟨u, k, by rw [paramAddr] at hk; omega, hu⟩

/-- Settles O40: each range of indices is a range of addresses, valid or not. -/
theorem framePointerAboveTheStackTop : Obligations.FramePointerAboveTheStackTop := by
  intro s idx hfp
  rw [exec_loadLocal, exec_storeLocal, exec_loadParam, exec_storeParam]
  refine ⟨load_of_invalid (by omega), fun hne => ?_, fun hlow => load_of_invalid (paramAddr_invalid_iff.2 (by omega)),
    fun hlow hhigh hcap => ?_, fun hhigh => load_of_invalid (paramAddr_invalid_iff.2 (by omega)), fun rest v hos => ?_⟩
  · obtain ⟨rest, v, hos⟩ := (List.eq_nil_or_concat' s.os).resolve_left hne
    have hlen : s.os.length = rest.length + 1 := by simp [hos]
    exact store_of_invalid hos (by omega)
  · have hlt : s.fp - (idx + 1) < s.os.length := by omega
    exact ⟨_, List.getElem?_eq_getElem hlt,
      load_of_not_full (paramAddr_eq_natCast (by omega)) (List.getElem?_eq_getElem hlt) hcap⟩
  · have hlen : s.os.length = rest.length + 1 := by simp [hos]
    refine ⟨fun hlow => store_of_invalid hos (paramAddr_invalid_iff.2 (by omega)), fun hlow hhigh => ?_,
      fun hhigh => store_of_invalid hos (paramAddr_invalid_iff.2 (by omega))⟩
    have hlt : s.fp - (idx + 1) < rest.length := by omega
    exact ⟨hlt, store_of_valid hos (paramAddr_eq_natCast (by omega)) hlt⟩

/-- Settles O43: a load's address is checked against the stack, a store's against the stack without the value. -/
theorem outOfBoundsExactlyWhenTheAddressIsInvalid : Obligations.OutOfBoundsExactlyWhenTheAddressIsInvalid := by
  intro s idx hr
  rw [exec_loadLocal, exec_storeLocal, exec_loadParam, exec_storeParam]
  refine ⟨(load_outOfBounds_iff hr).trans natCast_invalid_iff, (load_outOfBounds_iff hr).trans ?_, fun hne => ?_⟩
  · rw [paramAddr_invalid_iff]
    omega
  · obtain ⟨rest, v, hos⟩ := (List.eq_nil_or_concat' s.os).resolve_left hne
    have hlen : s.os.length - 1 = rest.length := by simp [hos]
    rw [hlen, store_outOfBounds_iff hr hos, store_outOfBounds_iff hr hos, paramAddr_invalid_iff]
    omega

end Sys2Proof
end

section
/-! SUPPORT. Faults and frames for every instruction, each taken from `exec_outcome`: the report a fault leaves
(spec/60_exceptions.md R161, R167, R168), what only some instructions change (spec/10_state.md R22 to R31), and the call
stack between a CALL and the RETURN that matches it (spec/42_call_frame.md R125). -/

namespace Sys2Proof

open Sys2Proof.Machine

section
variable {i : Instr} {s t : State}

/-! ### The report of a fault -/

/-- R168's table, read off the five faults an instruction raises. -/
theorem report_of_outcome (ho : ExecOutcome i s t) (hr : s.status = .running) (ht : t.status = .faulted) :
    (t.faultKind = .stackUnderflow ∧ Stores i ∧ t.faultPc = s.pc + 2) ∨
    (t.faultKind = .stackUnderflow ∧ ¬ Stores i ∧ t.faultPc = s.pc + 1) ∨
    (t.faultKind = .divisionByZero ∧ i = .div ∧ t.faultPc = s.pc + 1) ∨
    (t.faultKind = .outOfBoundsAccess ∧ t.faultPc = s.pc + 2) ∨
    (t.faultKind = .stackOverflow ∧ t.faultPc = s.pc + 2) := by
  cases ho with
  | underflow p _ hp =>
    rcases hp with ⟨hi, rfl⟩ | ⟨hi, rfl⟩
    · exact .inl ⟨rfl, hi, rfl⟩
    · exact .inr (.inl ⟨rfl, hi, rfl⟩)
  | zeroDivisor hi => exact .inr (.inr (.inl ⟨rfl, hi, rfl⟩))
  | outOfBounds => exact .inr (.inr (.inr (.inl ⟨rfl, rfl⟩)))
  | osOverflow | csOverflow => exact .inr (.inr (.inr (.inr ⟨rfl, rfl⟩)))
  | halted => cases ht
  | _ => cases hr.symm.trans ht

/-- Every check of an instruction is made after the opcode byte and at most one operand byte (R168). -/
theorem faultPc_bounds_of_outcome (ho : ExecOutcome i s t) (hr : s.status = .running) (ht : t.status = .faulted) :
    s.pc < t.faultPc ∧ t.faultPc ≤ s.pc + 2 := by
  rcases report_of_outcome ho hr ht with ⟨_, _, hp⟩ | ⟨_, _, hp⟩ | ⟨_, _, hp⟩ | ⟨_, hp⟩ | ⟨_, hp⟩ <;> omega

/-- The two pushes beyond a capacity are the only causes of `StackOverflow` (R167). -/
theorem full_of_stackOverflow (ho : ExecOutcome i s t) (hr : s.status = .running) (ht : t.status = .faulted)
    (hk : t.faultKind = .stackOverflow) :
    (s.cfg.osCap = some s.os.length ∧ Pushes i) ∨
      ∃ n target, s.cfg.csCap = some n ∧ n < s.cs.length + 2 ∧ i = .call target := by
  cases ho with
  | osOverflow hi h => exact .inl ⟨h, hi⟩
  | csOverflow target n hi hc h => exact .inr ⟨n, target, hc, h, hi⟩
  | underflow | zeroDivisor | outOfBounds => cases hk
  | halted => cases ht
  | _ => cases hr.symm.trans ht

theorem report_kept_of_not_faulted (ho : ExecOutcome i s t) (ht : t.status ≠ .faulted) :
    t.faultKind = s.faultKind ∧ t.faultPc = s.faultPc ∧ (i ≠ .halt → t.status = s.status) := by
  cases ho with
  | underflow | zeroDivisor | outOfBounds | osOverflow | csOverflow => exact absurd rfl ht
  | halted hi => exact ⟨rfl, rfl, fun h => absurd hi h⟩
  | _ => exact ⟨rfl, rfl, fun _ => rfl⟩

/-! ### What only some instructions change -/

theorem frame_kept_of_outcome (ho : ExecOutcome i s t) (hcall : ∀ target, i ≠ .call target) (hret : i ≠ .ret) :
    t.cs = s.cs ∧ t.fp = s.fp := by
  cases ho with
  | called target hi => exact absurd hi (hcall target)
  | returned _ _ _ hi => exact absurd hi hret
  | _ => exact ⟨rfl, rfl⟩

theorem out_of_outcome (ho : ExecOutcome i s t) :
    t.out = s.out ∨
      (i = .print ∧ ∃ v, s.os.getLast? = some v ∧ t.out = s.out ++ [{ pc := s.pc + 1, value := v }]) := by
  cases ho with
  | printed rest v h hi => exact .inr ⟨hi, v, by rw [h, List.getLast?_concat], rfl⟩
  | _ => exact .inl rfl

theorem prog_cfg_kept_of_outcome (ho : ExecOutcome i s t) : t.prog = s.prog ∧ t.cfg = s.cfg := by
  cases ho <;> exact ⟨rfl, rfl⟩

theorem getElem?_of_popped {xs rest : List Value} {v : Value} {k : Nat} (h : xs = rest ++ [v])
    (hk : k + 1 < xs.length) : rest[k]? = xs[k]? := by
  subst h
  exact (List.getElem?_append_left (by simpa using hk)).symm

/-- A completion works on the cells it pops and above, but for the one a store addresses (R22). -/
theorem os_getElem?_of_outcome (ho : ExecOutcome i s t) {k : Nat} (hk : k + osNeeded i < s.os.length)
    (hlocal : ∀ idx, i = .storeLocal idx → k ≠ s.fp + idx) (hparam : ∀ idx, i = .storeParam idx → k + (idx + 1) ≠ s.fp) :
    t.os[k]? = s.os[k]? := by
  cases ho with
  | pushed => exact List.getElem?_append_left (by omega)
  | computed rest second top v h hi =>
    have hn : osNeeded i = 2 := by rcases hi with rfl | rfl | rfl | rfl <;> rfl
    have hlt : k < rest.length := by simp [h, hn] at hk; omega
    rw [h, List.getElem?_append_left hlt, List.getElem?_append_left hlt]
  | printed rest v h hi =>
    subst hi
    exact getElem?_of_popped h hk
  | tested target rest c p hi h =>
    subst hi
    exact getElem?_of_popped h hk
  | stored rest v a h _ hi =>
    have hn : osNeeded i = 1 := by rcases hi with ⟨_, rfl, _⟩ | ⟨_, rfl, _⟩ <;> rfl
    have ha : a ≠ k := by
      rcases hi with ⟨idx, hi, rfl⟩ | ⟨idx, hi, hfp⟩
      · exact (hlocal idx hi).symm
      · have := hparam idx hi
        omega
    exact (List.getElem?_set_ne ha).trans (getElem?_of_popped h (hn ▸ hk))
  | _ => rfl

/-- An instruction leaves the lowest entries of the call stack that are there before and after it (R23). -/
theorem cs_take_of_outcome (ho : ExecOutcome i s t) {n : Nat} (hs : n ≤ s.cs.length) (ht : n ≤ t.cs.length) :
    t.cs.take n = s.cs.take n := by
  cases ho with
  | called => exact List.take_append_of_le_length hs
  | returned rest returnPc savedFp _ h => rw [h, List.take_append_of_le_length ht]
  | _ => rfl

end

/-! ### The step -/

section
variable {s t : State}

/-- Where a step does not run an instruction it changes `pc`, `status` and the report alone (R82 to R84, R86). -/
theorem step_exec_or_control (h : step s = .next t) :
    (∃ i, fetch s = .instr i ∧ exec i s = .next t) ∨
      ∃ st k r p, t = { s with status := st, faultKind := k, faultPc := r, pc := p } := by
  obtain ⟨_, ⟨_, rfl⟩ | ⟨_, rfl⟩ | ⟨_, _, rfl⟩ | ⟨_, _, _, ⟨_, _, rfl⟩ | ⟨_, rfl⟩⟩ | ⟨i, _, hf, he⟩⟩ := step_cases h
  case inr.inr.inr.inr => exact .inl ⟨i, hf, he⟩
  all_goals exact .inr ⟨_, _, _, _, rfl⟩

theorem prog_cfg_kept_of_step (h : step s = .next t) : t.prog = s.prog ∧ t.cfg = s.cfg := by
  rcases step_exec_or_control h with ⟨i, _, he⟩ | ⟨_, _, _, _, rfl⟩
  · exact prog_cfg_kept_of_outcome (exec_outcome he)
  · exact ⟨rfl, rfl⟩

theorem cs_take_of_step (h : step s = .next t) {n : Nat} (hs : n ≤ s.cs.length) (ht : n ≤ t.cs.length) :
    t.cs.take n = s.cs.take n := by
  rcases step_exec_or_control h with ⟨i, _, he⟩ | ⟨_, _, _, _, rfl⟩
  · exact cs_take_of_outcome (exec_outcome he) hs ht
  · rfl

theorem out_grows_of_step (h : step s = .next t) : s.out <+: t.out := by
  rcases step_exec_or_control h with ⟨i, _, he⟩ | ⟨_, _, _, _, rfl⟩
  · rcases out_of_outcome (exec_outcome he) with ho | ⟨_, v, _, ho⟩
    · exact ⟨[], by rw [ho, List.append_nil]⟩
    · exact ⟨_, ho.symm⟩
  · exact ⟨[], List.append_nil _⟩

/-! ### Runs -/

theorem out_grows_of_run (fuel : Nat) (s : State) : s.out <+: (run fuel s).out := by
  induction fuel generalizing s with
  | zero => exact ⟨[], List.append_nil _⟩
  | succ fuel ih =>
    by_cases hr : s.status = .running
    · obtain ⟨t, ht⟩ := exists_step_eq_next_iff.2 hr
      rw [run_succ_of_step fuel ht]
      exact (out_grows_of_step ht).trans (ih t)
    · exact ⟨[], by rw [run_of_terminal _ hr, List.append_nil]⟩

theorem le_length_of_stepsAbove {n : Nat} (h : StepsAbove n s t) : n ≤ t.cs.length := by
  cases h with
  | refl hn => exact hn
  | tail _ _ hn => exact hn

/-- A run that never drops below `n` call-stack entries keeps the lowest `n` (R125). -/
theorem cs_take_of_stepsAbove {n : Nat} (h : StepsAbove n s t) : t.cs.take n = s.cs.take n := by
  induction h with
  | refl => rfl
  | tail h hstep hn ih => rw [cs_take_of_step hstep (le_length_of_stepsAbove h) hn, ih]

theorem eq_called_of_running {target : Nat} (h : exec (.call target) s = .next t) (ht : t.status = .running) :
    t = { s with cs := s.cs ++ [s.pc + 2, s.fp], fp := s.os.length, pc := target } := by
  by_cases hcap : ∀ n, s.cfg.csCap = some n → s.cs.length + 2 ≤ n
  · rw [exec_call_of_fits target hcap] at h
    cases h
    rfl
  · push Not at hcap
    obtain ⟨n, hn, hlt⟩ := hcap
    rw [exec_call_of_full target hn hlt] at h
    cases h
    cases ht

end

/-! ### The obligations of spec/60_exceptions.md on the report -/

/-- Settles O44, by `report_of_outcome`. -/
theorem reportedProgramCounter : Obligations.ReportedProgramCounter := by
  intro i s k p hr h
  rcases report_of_outcome (exec_outcome h) hr rfl with hrow | ⟨hk, hi, hp⟩ | hrow
  · exact .inl hrow
  · exact .inr (.inl ⟨hk, fun idx hs => hi (.inl ⟨idx, hs⟩), fun idx hs => hi (.inr ⟨idx, hs⟩), hp⟩)
  · exact .inr (.inr hrow)

/-- Settles O45: a faulted next state is fault entry, at an address the report table allows. -/
theorem faultsArePrecise : Obligations.FaultsArePrecise := by
  intro i s t hr h ht
  have hbounds := faultPc_bounds_of_outcome (exec_outcome h) hr ht
  obtain ⟨k, hk, hfault⟩ := eq_asFaulted_of_outcome (exec_outcome h) hr ht
  generalize t.faultPc = p at hfault hbounds
  subst hfault
  exact ⟨rfl, rfl, rfl, rfl, rfl, rfl, hk, rfl, hbounds⟩

/-- Settles O46: no completion writes the report, and HALT alone writes the status. -/
theorem onlyFaultEntryWritesTheReport : Obligations.OnlyFaultEntryWritesTheReport := fun _ _ _ h =>
  report_kept_of_not_faulted (exec_outcome h)

/-- Settles O47, by `full_of_stackOverflow`. -/
theorem stackOverflowOnlyWhenFull : Obligations.StackOverflowOnlyWhenFull := fun _ _ _ hr h =>
  full_of_stackOverflow (exec_outcome h) hr rfl rfl

/-! ### The obligations of spec/10_state.md and spec/20_memory.md on what is left unchanged -/

/-- Settles O49: among the outcomes only a completed CALL or RETURN writes the call stack or `fp`. -/
theorem onlyCallAndReturnTouchTheFrame : Obligations.OnlyCallAndReturnTouchTheFrame := fun _ _ _ h =>
  frame_kept_of_outcome (exec_outcome h)

/-- Settles O50: among the outcomes only a completed PRINT writes the output. -/
theorem onlyPrintEmits : Obligations.OnlyPrintEmits := fun _ _ _ h => out_of_outcome (exec_outcome h)

/-- Settles O51: no outcome writes the program or the build. -/
theorem programMemoryIsNeverWritten : Obligations.ProgramMemoryIsNeverWritten := by
  refine ⟨fun i s t h => prog_cfg_kept_of_outcome (exec_outcome h), fun s t h => ?_⟩
  obtain ⟨hprog, hcfg⟩ := prog_cfg_kept_of_step h
  exact ⟨hcfg, by rw [hprog], fun a => by rw [hprog]⟩

/-- Settles O52, by `os_getElem?_of_outcome`. -/
theorem cellsBelowTheOperandsAreKept : Obligations.CellsBelowTheOperandsAreKept := fun _ _ _ _ h =>
  os_getElem?_of_outcome (exec_outcome h)

/-- Settles O55, by induction on the fuel. -/
theorem outputOnlyGrows : Obligations.OutputOnlyGrows := out_grows_of_run

/-! ### The obligations of spec/42_call_frame.md on nested calls -/

/-- Settles O57: a CALL appends to the call stack and a RETURN takes from its top. -/
theorem stepKeepsTheLowestCallStackEntries : Obligations.StepKeepsTheLowestCallStackEntries := fun _ _ _ h =>
  cs_take_of_step h

/-- Settles O29: the run keeps the entries the CALL left, so the RETURN finds the CALL's own pair on top. -/
theorem matchingReturnRestoresTheCaller : Obligations.MatchingReturnRestoresTheCaller := by
  intro s t u target hs hf hst ht hrun hlen hu hfu
  rw [step_running hs, hf] at hst
  have hcs : u.cs = t.cs := by
    have htake := cs_take_of_stepsAbove hrun
    rwa [List.take_length, ← hlen, List.take_length] at htake
  rw [eq_called_of_running hst ht] at hcs
  rw [step_running hu, hfu]
  exact ⟨_, exec_ret_of_append hcs, hu, rfl, rfl, rfl, rfl⟩

end Sys2Proof
end

section
/-! SUPPORT. The invariant of the engine (spec/10_state.md R25, R27, R33, R34): it holds at construction, every step keeps it,
and under it no number outgrows an admissible width (spec/00_scope.md R6). With both stacks unbounded, that no engine reports
`StackOverflow` is kept along a run in the same way (spec/60_exceptions.md R167). -/

namespace Sys2Proof

open Sys2Proof.Machine

/-! ### The saved pairs of a call stack -/

theorem framesOk_append {plen : Nat} {okFp : Nat → Bool} : ∀ {xs ys : List Nat}, xs.length % 2 = 0 →
    framesOk plen okFp (xs ++ ys) = (framesOk plen okFp xs && framesOk plen okFp ys)
  | [], _, _ => rfl
  | [_], _, h => absurd h (by simp)
  | r :: f :: xs, ys, h => by
    have ih := framesOk_append (plen := plen) (okFp := okFp) (xs := xs) (ys := ys)
      (by simp only [List.length_cons] at h; omega)
    simp [framesOk, ih, Bool.and_assoc]

theorem framesOk_append_pair {plen : Nat} {okFp : Nat → Bool} {xs : List Nat} {r f : Nat} (h : xs.length % 2 = 0) :
    framesOk plen okFp (xs ++ [r, f]) = true ↔ framesOk plen okFp xs = true ∧ r ≤ plen ∧ okFp f = true := by
  simp [framesOk_append h, framesOk]

/-- Every entry of whole pairs is a return address or a saved frame pointer. -/
theorem le_or_okFp_of_framesOk {plen : Nat} {okFp : Nat → Bool} : ∀ {xs : List Nat}, xs.length % 2 = 0 →
    framesOk plen okFp xs = true → ∀ e ∈ xs, e ≤ plen ∨ okFp e = true
  | [], _, _ => by simp
  | [_], h, _ => absurd h (by simp)
  | r :: f :: xs, h, hok => by
    simp only [framesOk, Bool.and_eq_true, decide_eq_true_eq] at hok
    obtain ⟨⟨hr, hf⟩, hxs⟩ := hok
    have ih := le_or_okFp_of_framesOk (by simp only [List.length_cons] at h; omega) hxs
    simp only [List.forall_mem_cons]
    exact ⟨.inl hr, .inr hf, ih⟩

/-! ### Construction -/

theorem inv_construct (cfg : Config) {prog : Memory} (h : prog.wf = true) : Inv (State.construct cfg prog) where
  progWf := h
  pcBound := Nat.zero_le _
  csEven := rfl
  frames := rfl
  fpBound := by cases hc : cfg.osCap <;> simp [fpOk, State.construct, hc]
  osBound _ _ := Nat.zero_le _
  csBound _ _ := Nat.zero_le _
  noReport _ := ⟨rfl, rfl⟩
  report h := nomatch h
  events := by simp [State.construct]

/-! ### Where a fetched instruction ends -/

section
variable {s t : State} {i : Instr}

/-- A fetched instruction lies inside the program whole (R82, R86). -/
theorem add_encode_length_le_of_fetch (hf : fetch s = .instr i) : s.pc + (encode i).length ≤ s.prog.len := by
  rcases encode_length i with hl | hl
  · rw [hl]
    exact (fetch_eq_instr.1 hf).1
  · obtain ⟨op, v, he⟩ := List.length_eq_two.1 hl
    rw [hl]
    exact Memory.read?_lt (read?_operand_of_fetch hf he)

theorem encode_length_of_pushes (h : Pushes i) : (encode i).length = 2 := by
  rcases h with ⟨_, rfl⟩ | ⟨_, rfl⟩ | ⟨_, rfl⟩ <;> rfl

theorem encode_length_of_stores (h : Stores i) : (encode i).length = 2 := by
  rcases h with ⟨_, rfl⟩ | ⟨_, rfl⟩ <;> rfl

/-! ### The step -/

theorem fpOk_os_length_of_inv (h : Inv s) : fpOk s.cfg.osCap s.os.length = true := by
  unfold fpOk
  split
  · rfl
  · next n hn => exact decide_eq_true (h.osBound n hn)

/-- Fault entry at an address `pc` may hold keeps the invariant (R161). -/
theorem inv_asFaulted (h : Inv s) {k : FaultKind} {p : Nat} (hk : k ≠ .noFault) (hp : p ≤ max s.prog.len 255) :
    Inv (s.asFaulted k p) :=
  { h with
    pcBound := hp
    noReport := fun hne => absurd rfl hne
    report := fun _ => ⟨hk, rfl⟩ }

/-- A halt keeps the invariant: no fault is recorded (R27). -/
theorem inv_halted (h : Inv s) (hr : s.status = .running) {p : Nat} (hp : p ≤ max s.prog.len 255) :
    Inv { s with pc := p, status := .halted } :=
  { h with
    pcBound := hp
    noReport := fun _ => h.noReport (by simp [hr])
    report := fun he => nomatch he }

theorem inv_setPc_setOs (h : Inv s) {p : Nat} {xs : List Value} (hr : s.status = .running) (hp : p ≤ max s.prog.len 255)
    (hxs : ∀ n, s.cfg.osCap = some n → xs.length ≤ n) : Inv { s with pc := p, os := xs } :=
  { h with
    pcBound := hp
    osBound := hxs
    noReport := h.noReport
    report := fun he => nomatch hr.symm.trans he }

theorem inv_printed (h : Inv s) (hr : s.status = .running) (hpc : s.pc + 1 ≤ s.prog.len) {rest : List Value} {v : Value}
    (hos : s.os = rest ++ [v]) :
    Inv { s with pc := s.pc + 1, os := rest, out := s.out ++ [{ pc := s.pc + 1, value := v }] } :=
  { inv_setPc_setOs h hr (le_max_of_le_left hpc) (xs := rest) fun n hn => by
      have hle := h.osBound n hn
      rw [hos, List.length_append] at hle
      omega with
    events := fun e he => by
      rcases List.mem_append.1 he with he | he
      · exact h.events e he
      · rw [List.mem_singleton.1 he]
        exact ⟨Nat.le_add_left _ _, hpc⟩ }

/-- CALL saves a return address inside the program and a frame pointer that was a length of the operand stack (R120). -/
theorem inv_called (h : Inv s) (hr : s.status = .running) {target : Nat} (htarget : target ≤ 255)
    (hpc : s.pc + 2 ≤ s.prog.len) (hcap : ∀ n, s.cfg.csCap = some n → s.cs.length + 2 ≤ n) :
    Inv { s with cs := s.cs ++ [s.pc + 2, s.fp], fp := s.os.length, pc := target } :=
  { h with
    pcBound := le_max_of_le_right htarget
    csEven := by
      have heven := h.csEven
      simp only [List.length_append, List.length_cons, List.length_nil]
      omega
    frames := (framesOk_append_pair h.csEven).2 ⟨h.frames, hpc, h.fpBound⟩
    fpBound := fpOk_os_length_of_inv (s := s) h
    csBound := fun n hn => by simpa using hcap n hn
    noReport := h.noReport
    report := fun he => nomatch hr.symm.trans he }

/-- RETURN takes back what a CALL saved (R121). -/
theorem inv_returned (h : Inv s) (hr : s.status = .running) {rest : List Nat} {returnPc savedFp : Nat}
    (hcs : s.cs = rest ++ [returnPc, savedFp]) : Inv { s with cs := rest, fp := savedFp, pc := returnPc } := by
  have hlen : s.cs.length = rest.length + 2 := by rw [hcs, List.length_append]; rfl
  have heven : rest.length % 2 = 0 := by
    have := h.csEven
    omega
  have hframes := h.frames
  rw [hcs, framesOk_append_pair heven] at hframes
  obtain ⟨hrest, hpc, hfp⟩ := hframes
  exact
    { h with
      pcBound := le_max_of_le_left hpc
      csEven := heven
      frames := hrest
      fpBound := hfp
      csBound := fun n hn => by
        have hle := h.csBound n hn
        show rest.length ≤ n
        omega
      noReport := h.noReport
      report := fun he => nomatch hr.symm.trans he }

/-- Every outcome of a fetched instruction keeps the invariant. -/
theorem inv_of_outcome (h : Inv s) (hr : s.status = .running) (hf : fetch s = .instr i) (ho : ExecOutcome i s t) :
    Inv t := by
  have hlen := add_encode_length_le_of_fetch hf
  have hlt := (fetch_eq_instr.1 hf).1
  cases ho with
  | underflow p _ hp =>
    refine inv_asFaulted h (by decide) (le_max_of_le_left ?_)
    rcases hp with ⟨hi, rfl⟩ | ⟨_, rfl⟩
    · exact encode_length_of_stores hi ▸ hlen
    · exact hlt
  | zeroDivisor => exact inv_asFaulted h (by decide) (le_max_of_le_left hlt)
  | outOfBounds hi =>
    refine inv_asFaulted h (by decide) (le_max_of_le_left ?_)
    rcases hi with hi | hi | hi
    · exact encode_length_of_pushes (.inr (.inl hi)) ▸ hlen
    · exact encode_length_of_pushes (.inr (.inr hi)) ▸ hlen
    · exact encode_length_of_stores hi ▸ hlen
  | osOverflow hi =>
    exact inv_asFaulted h (by decide) (le_max_of_le_left (encode_length_of_pushes hi ▸ hlen))
  | csOverflow target n hi =>
    subst hi
    exact inv_asFaulted h (by decide) (le_max_of_le_left hlen)
  | pushed v hi hcap =>
    refine inv_setPc_setOs h hr (le_max_of_le_left (encode_length_of_pushes hi ▸ hlen)) fun n hn => ?_
    have hle := h.osBound n hn
    have hne : s.os.length ≠ n := fun he => hcap (he ▸ hn)
    rw [List.length_append, List.length_singleton]
    omega
  | computed rest second top v hos =>
    refine inv_setPc_setOs h hr (le_max_of_le_left hlt) fun n hn => ?_
    have hle := h.osBound n hn
    simp only [hos, List.length_append, List.length_cons, List.length_nil] at hle ⊢
    omega
  | printed rest v hos => exact inv_printed h hr hlt hos
  | called target hi hcap =>
    subst hi
    exact inv_called h hr (target_le_of_fetch hf rfl) hlen hcap
  | returned rest returnPc savedFp _ hcs => exact inv_returned h hr hcs
  | jumped target hi =>
    subst hi
    exact inv_setPc_setOs h hr (le_max_of_le_right (target_le_of_fetch hf rfl)) h.osBound
  | tested target rest c p hi hos hp =>
    subst hi
    refine inv_setPc_setOs h hr ?_ fun n hn => ?_
    · rcases hp with rfl | rfl
      · exact le_max_of_le_left hlen
      · exact le_max_of_le_right (target_le_of_fetch hf rfl)
    · have hle := h.osBound n hn
      rw [hos, List.length_append] at hle
      omega
  | stored rest v k hos _ hi =>
    have hst : Stores i := hi.imp (fun ⟨idx, e, _⟩ => ⟨idx, e⟩) (fun ⟨idx, e, _⟩ => ⟨idx, e⟩)
    refine inv_setPc_setOs h hr (le_max_of_le_left (encode_length_of_stores hst ▸ hlen)) fun n hn => ?_
    have hle := h.osBound n hn
    rw [hos, List.length_append] at hle
    rw [List.length_set]
    omega
  | halted => exact inv_halted h hr (le_max_of_le_left hlt)

theorem inv_of_step (h : Inv s) (hst : step s = .next t) : Inv t := by
  obtain ⟨hr, ⟨_, rfl⟩ | ⟨_, rfl⟩ | ⟨_, _, rfl⟩ | ⟨_, hl, _, ⟨_, _, rfl⟩ | ⟨_, rfl⟩⟩ | ⟨i, _, hf, he⟩⟩ := step_cases hst
  · exact inv_halted h hr h.pcBound
  · exact inv_asFaulted h (by decide) h.pcBound
  · exact inv_asFaulted h (by decide) h.pcBound
  · exact inv_asFaulted h (by decide) (le_max_of_le_left hl.le)
  · exact inv_asFaulted h (by decide) (le_max_of_le_left hl.le)
  · exact inv_of_outcome h hr hf (exec_outcome he)

end

/-! ### The widths of a build (R6) -/

theorem exists_osCap_of_uwAdmissible {cfg : Config} {plen w : Nat} (hw : cfg.uw = some w)
    (h : cfg.uwAdmissible plen = true) : ∃ n, cfg.osCap = some n ∧ max (max plen 255) (n + 255) < 2 ^ w := by
  unfold Config.uwAdmissible at h
  rw [hw] at h
  cases hc : cfg.osCap with
  | none => simp [hc] at h
  | some n => exact ⟨n, rfl, by simpa [hc] using h⟩

theorem le_of_fpOk {osCap : Option Nat} {n f : Nat} (hc : osCap = some n) (h : fpOk osCap f = true) : f ≤ n := by
  rw [hc] at h
  exact of_decide_eq_true h

/-- The reported address is 0 or the program counter (R27, R168). -/
theorem faultPc_le_of_inv {s : State} (h : Inv s) : s.faultPc ≤ s.pc := by
  by_cases hs : s.status = .faulted
  · exact (h.report hs).2.le
  · exact (h.noReport hs).2 ▸ Nat.zero_le _

/-! ### Runs -/

/-- What every step keeps holds at the end of a run. -/
theorem of_stepsAbove {P : State → Prop} (hstep : ∀ s t, P s → step s = .next t → P t) {n : Nat} {s t : State}
    (h : StepsAbove n s t) (hs : P s) : P t := by
  induction h with
  | refl => exact hs
  | tail _ ht _ ih => exact hstep _ _ ih ht

/-- A build with both stacks unbounded whose engine does not report `StackOverflow`. -/
def NoOverflow (s : State) : Prop := s.cfg.osCap = none ∧ s.cfg.csCap = none ∧ s.faultKind ≠ .stackOverflow

theorem noOverflow_of_outcome {i : Instr} {s t : State} (h : NoOverflow s) (hr : s.status = .running)
    (ho : ExecOutcome i s t) : t.faultKind ≠ .stackOverflow := by
  obtain ⟨hos, hcs, hk⟩ := h
  by_cases ht : t.status = .faulted
  · intro hover
    rcases full_of_stackOverflow ho hr ht hover with ⟨hcap, _⟩ | ⟨_, _, hcap, _⟩
    · cases hos.symm.trans hcap
    · cases hcs.symm.trans hcap
  · rw [(report_kept_of_not_faulted ho ht).1]
    exact hk

theorem noOverflow_of_step (s t : State) (h : NoOverflow s) (hst : step s = .next t) : NoOverflow t := by
  obtain ⟨_, hcfg⟩ := prog_cfg_kept_of_step hst
  have ⟨hos, hcs, hk⟩ := h
  refine ⟨hcfg ▸ hos, hcfg ▸ hcs, ?_⟩
  obtain ⟨hr, ⟨_, rfl⟩ | ⟨_, rfl⟩ | ⟨_, _, rfl⟩ | ⟨_, _, _, ⟨_, _, rfl⟩ | ⟨_, rfl⟩⟩ | ⟨i, _, _, he⟩⟩ := step_cases hst
  case inr.inr.inr.inr => exact noOverflow_of_outcome h hr (exec_outcome he)
  case inl => exact hk
  all_goals exact nofun

/-! ### The obligations on the invariant and on what it rules out -/

/-- Settles O9: the empty program is in canonical form, and so is every sequence of bytes. -/
theorem resetMeetsTheInvariant : Obligations.ResetMeetsTheInvariant :=
  ⟨inv_construct _ Memory.wf_empty, fun cfg bs => inv_construct cfg (Memory.wf_ofBytes bs)⟩

/-- Settles O53: the step's own faults and halts report an address up to `PLEN` or the `pc` it found, and each outcome of a
fetched instruction keeps the invariant. -/
theorem stepKeepsTheInvariant : Obligations.StepKeepsTheInvariant := fun _ _ => inv_of_step

/-- Settles O54: every number is bounded by `max(PLEN, 255)` or by `OS_CAP`. -/
theorem noNumberOutgrowsItsWidth : Obligations.NoNumberOutgrowsItsWidth := by
  intro s w h hw hadm
  obtain ⟨n, hn, hlt⟩ := exists_osCap_of_uwAdmissible hw hadm
  have hpc := h.pcBound
  have hfp := le_of_fpOk hn h.fpBound
  have hfaultPc := faultPc_le_of_inv h
  refine ⟨by omega, by omega, by omega, fun e he => ?_, fun idx hidx => by omega⟩
  rcases le_or_okFp_of_framesOk h.csEven h.frames e he with hle | hok
  · omega
  · have hle := le_of_fpOk hn hok
    omega

/-- Settles O48: at construction nothing is reported, and `noOverflow_of_step` holds along the run. -/
theorem unboundedStacksNeverOverflow : Obligations.UnboundedStacksNeverOverflow := by
  intro cfg prog t hos hcs hrun
  obtain ⟨_, _, hk⟩ := of_stepsAbove noOverflow_of_step hrun ⟨hos, hcs, nofun⟩
  exact hk

end Sys2Proof
end
